-- ==== Sys2Proof/Word.lean ====
section
/-! DEFINITION. The word types of the block (spec 00_scope.md R9, R13): what each width is used for. -/

namespace Sys2Proof

/-- One byte, the unit a stored word is laid out in (20_memory.md R53). -/
abbrev Byte := BitVec 8

/-- Format SMP: a sample of the two lines, data level in bit 1, clock level in bit 0 (30_encoding.md R70). -/
abbrev Sample := BitVec 2

/-- One level of one line, or one bit of a field. -/
abbrev Level := BitVec 1

/-- Format HIST: the history word `{w, v, u}` (30_encoding.md R71). -/
abbrev HistWord := BitVec 6

/-- Format FRM: a 20-bit frame (30_encoding.md R72). -/
abbrev Frame := BitVec 20

/-- Format QW: a 32-bit queue word (30_encoding.md R73). -/
abbrev QWord := BitVec 32

/-- Format RDA: a read address (30_encoding.md R75). -/
abbrev RdAddr := BitVec 4

/-- A word of the register-file read space (20_memory.md R50). -/
abbrev RdWord := BitVec 16

end Sys2Proof
end

