-- ==== Sys2Proof/Config.lean ====
section
/-! DEFINITION. The implementation parameters, each at the value this hardware takes (spec 00_scope.md R8).
The spec leaves no value undefined, so there is no free value here. -/

namespace Sys2Proof

/-- `FRAME_BITS`: a frame has exactly 20 bits (R8). -/
def Config.frameBits : Nat := 20

/-- `CNT_MAX`: the bit count saturates here (R8, R24). -/
def Config.cntMax : Nat := 31

/-- `QDEPTH`: the FIFO's capacity. The spec asks for at least 10 and gives this hardware 10 (R8, D10; log entry 14). -/
def Config.qDepth : Nat := 10

/-- `CRC_CONST`, to be kept bit for bit (R8, R152). -/
def Config.crcConst : QWord := 0x25cb9e70#32

end Sys2Proof
end

