-- ==== Sys2Proof/Syntax.lean ====
section
/-! DEFINITION. The operations of the block: one constructor per row of spec/opcode_table.json.
A row of the history word keeps the bits its mask leaves free; a decode operation keeps the queue word. -/

namespace Sys2Proof

/-- The operations the agents perform (30_encoding.md R76, R78; 41_frame_queue.md R131 to R133;
43_state_readout.md R180; 70_reset_and_hazards.md R230). In the EDGE rows `w`, `wd`, `vd` and `ud` are the free
bits of `H`: the whole sample `w`, or the data levels of `w`, `v` and `u`. -/
inductive Instr where
  /-- R76 row 1, `xxx0x1`: the clock rose; folds `ud`. -/
  | edgeClkRise (w : Sample) (vd ud : Level)
  /-- R76 row 2, `xxx1x0`: the clock fell; folds `ud`. -/
  | edgeClkFall (w : Sample) (vd ud : Level)
  /-- R76 row 3, `001000`: the gap with data 0, 1, 0. -/
  | edgeGap010
  /-- R76 row 4, `100010`: the gap with data 1, 0, 1. -/
  | edgeGap101
  /-- R76 row 5, `xxx1x1`: the clock stayed high. -/
  | edgeDataHigh (w : Sample) (vd ud : Level)
  /-- R76 row 6, `x1x0x0`: the clock low now, high two samples ago. -/
  | edgeDataWHigh (wd vd ud : Level)
  /-- R76 row 7, `x00000`: the clock low throughout, data stayed 0. -/
  | edgeDataStay0 (wd : Level)
  /-- R76 row 8, `x01010`: the clock low throughout, data stayed 1. -/
  | edgeDataStay1 (wd : Level)
  /-- R76 row 9, `000010`: the first toggle, 0 to 1. -/
  | edgeDataToggle01
  /-- R76 row 10, `101000`: the first toggle, 1 to 0. -/
  | edgeDataToggle10
  /-- DEC.REJECT: the checksum fails (42_frame_decoder.md R154). -/
  | decReject (q : QWord)
  /-- DEC.F0: axes X and Y (R157). -/
  | decF0 (q : QWord)
  /-- DEC.F1: triggers LT and RT (R158). -/
  | decF1 (q : QWord)
  /-- DEC.F2: throttle, hat and d-pad (R159). -/
  | decF2 (q : QWord)
  /-- DEC.F3: buttons (R160). -/
  | decF3 (q : QWord)
  /-- DEC.FX: an accepted word with field index above 3 (R161). -/
  | decFx (q : QWord)
  /-- ENQ: S's request to put a word into the FIFO (R131). -/
  | enq (q : QWord)
  /-- DEQ: D takes the oldest visible word (R132). -/
  | deq
  /-- PUBLISH: Y makes the oldest pending word visible to D (R133). -/
  | publish
  /-- RELEASE: Y makes one freed slot visible to S (R133). -/
  | release
  /-- RD: the read port reads one register (R180). -/
  | rd (a : RdAddr)
  /-- RST: global reset (R230). -/
  | rst
  deriving DecidableEq, Repr

end Sys2Proof
end

