-- ==== Sys2Proof/Decode.lean ====
section
/-! DEFINITION. The classification of history words and queue words (spec 30_encoding.md R76, R78), the decoder,
total on any bytes, and after it the encoder. -/

namespace Sys2Proof

/-! ## Bit fields -/

/-- The data level of a sample, `u[1]` (R70). -/
def dataBit (u : Sample) : Level := u.extractLsb' 1 1

/-- The clock level of a sample, `u[0]` (R70). -/
def clockBit (u : Sample) : Level := u.extractLsb' 0 1

/-- A sample from its data and clock levels, `{data, clock}` (R70). -/
def mkSample (d c : Level) : Sample := d ++ c

/-- The history word `{w, v, u}` (R71). -/
def mkHist (w v u : Sample) : HistWord := w ++ v ++ u

/-- `H[5:4]`. -/
def histW (h : HistWord) : Sample := h.extractLsb' 4 2

/-- `H[3:2]`. -/
def histV (h : HistWord) : Sample := h.extractLsb' 2 2

/-- `H[1:0]`. -/
def histU (h : HistWord) : Sample := h.extractLsb' 0 2

/-- A queue word from its four stored bytes, little-endian (20_memory.md R53). -/
def qwordOfBytes (b0 b1 b2 b3 : Byte) : QWord := b3 ++ b2 ++ b1 ++ b0

/-- Byte `k` of a queue word holds its bits `[8k+7:8k]` (20_memory.md R53). -/
def qwordByte (q : QWord) (k : Nat) : Byte := q.extractLsb' (8 * k) 8

/-! ## The sampler's operation map -/

/-- The gap predicate: clock low in all three samples, data changed on this event and on the previous one
(40_edge_sampler.md R103). -/
def gap (u v w : Sample) : Bool :=
  clockBit u == 0#1 && clockBit v == 0#1 && clockBit w == 0#1
    && (dataBit u ^^^ dataBit v) == 1#1 && (dataBit v ^^^ dataBit w) == 1#1

/-- The three classes of an edge step (R76). -/
inductive EdgeClass where
  | clk
  | gap
  | data
  deriving DecidableEq, Repr

/-- The class of a history word, decided in the order of R76. -/
def classHist (h : HistWord) : EdgeClass :=
  if (clockBit (histU h) ^^^ clockBit (histV h)) == 1#1 then .clk
  else if gap (histU h) (histV h) (histW h) then .gap
  else .data

/-- The operation a history word selects: its class, and within the class the row of R76. -/
def decodeHist (h : HistWord) : Instr :=
  let u := histU h
  let v := histV h
  let w := histW h
  match classHist h with
  | .clk =>
    if clockBit u == 1#1 then .edgeClkRise w (dataBit v) (dataBit u)
    else .edgeClkFall w (dataBit v) (dataBit u)
  | .gap => if dataBit u == 0#1 then .edgeGap010 else .edgeGap101
  | .data =>
    if clockBit u == 1#1 then .edgeDataHigh w (dataBit v) (dataBit u)
    else if clockBit w == 1#1 then .edgeDataWHigh (dataBit w) (dataBit v) (dataBit u)
    else if dataBit u == dataBit v then
      if dataBit u == 0#1 then .edgeDataStay0 (dataBit w) else .edgeDataStay1 (dataBit w)
    else if dataBit u == 1#1 then .edgeDataToggle01 else .edgeDataToggle10

/-! ## The checksum and the decoder's operation map -/

/-- The checksum fold, on 32-bit unsigned values with logical shifts (42_frame_decoder.md R151). -/
def crcFold (q : QWord) : QWord := q ^^^ (q >>> 7) ^^^ (q >>> 14)

/-- The accept test, the normative form (R152). -/
def crcOk (q : QWord) : Bool :=
  let crc := crcFold q
  ((crc ^^^ (Config.crcConst >>> ((crc >>> 2) &&& 0x1c#32).toNat)) &&& 0xF#32) == 0#32

/-- The field index, `Q >> 18` (R155). -/
def fieldOf (q : QWord) : QWord := q >>> 18

/-- The six classes of a dequeued word (R78). -/
inductive DecClass where
  | reject
  | f0
  | f1
  | f2
  | f3
  | fx
  deriving DecidableEq, Repr

/-- The class of a queue word, the checksum first (R78, R204 (c)). -/
def classQW (q : QWord) : DecClass :=
  if !crcOk q then .reject
  else if fieldOf q == 0#32 then .f0
  else if fieldOf q == 1#32 then .f1
  else if fieldOf q == 2#32 then .f2
  else if fieldOf q == 3#32 then .f3
  else .fx

/-- The operation a queue word selects (R78). -/
def decodeQW (q : QWord) : Instr :=
  match classQW q with
  | .reject => .decReject q
  | .f0 => .decF0 q
  | .f1 => .decF1 q
  | .f2 => .decF2 q
  | .f3 => .decF3 q
  | .fx => .decFx q

/-! ## The decoder on bytes -/

/-- The encoded formats (30_encoding.md section 1). Each goes to one agent: HIST to S, QW to D, RDA to R. -/
inductive Format where
  | hist
  | qw
  | rda
  deriving DecidableEq, Repr

/-- Why the decoder refuses a list of bytes. No word of a format is illegal (R80); only bytes that are no word of
the format are refused. -/
inductive DecodeRefusal where
  /-- The number of bytes is not the format's. -/
  | wrongLength
  /-- A bit above the format's width (6 for HIST, 4 for RDA) is not 0. -/
  | bitsAboveWidth
  deriving DecidableEq, Repr

/-- What the decoder answers. -/
inductive Decoded where
  | instr (i : Instr)
  | refused (r : DecodeRefusal)
  deriving DecidableEq, Repr

/-- The decoder. A word narrower than a byte stands in the low bits of one byte; a queue word is four bytes,
little-endian (R53; log entry 13). -/
def decode : Format → List Byte → Decoded
  | .hist, [b] =>
    if b.extractLsb' 6 2 == 0#2 then .instr (decodeHist (b.extractLsb' 0 6)) else .refused .bitsAboveWidth
  | .qw, [b0, b1, b2, b3] => .instr (decodeQW (qwordOfBytes b0 b1 b2 b3))
  | .rda, [b] =>
    if b.extractLsb' 4 4 == 0#4 then .instr (.rd (b.extractLsb' 0 4)) else .refused .bitsAboveWidth
  | _, _ => .refused .wrongLength

/-- The instruction of an answer, if there is one. -/
def Decoded.instr? : Decoded → Option Instr
  | .instr i => some i
  | .refused _ => none

/-! ## The encoder -/

/-- The history word of an edge operation, from the rows of R76. -/
def encodeHist : Instr → Option HistWord
  | .edgeClkRise w vd ud => some (w ++ vd ++ 0#1 ++ ud ++ 1#1)
  | .edgeClkFall w vd ud => some (w ++ vd ++ 1#1 ++ ud ++ 0#1)
  | .edgeGap010 => some 0b001000#6
  | .edgeGap101 => some 0b100010#6
  | .edgeDataHigh w vd ud => some (w ++ vd ++ 1#1 ++ ud ++ 1#1)
  | .edgeDataWHigh wd vd ud => some (wd ++ 1#1 ++ vd ++ 0#1 ++ ud ++ 0#1)
  | .edgeDataStay0 wd => some (wd ++ 0b00000#5)
  | .edgeDataStay1 wd => some (wd ++ 0b01010#5)
  | .edgeDataToggle01 => some 0b000010#6
  | .edgeDataToggle10 => some 0b101000#6
  | .decReject _ => none
  | .decF0 _ => none
  | .decF1 _ => none
  | .decF2 _ => none
  | .decF3 _ => none
  | .decFx _ => none
  | .enq _ => none
  | .deq => none
  | .publish => none
  | .release => none
  | .rd _ => none
  | .rst => none

/-- The queue word of a decode operation. -/
def encodeQW : Instr → Option QWord
  | .decReject q => some q
  | .decF0 q => some q
  | .decF1 q => some q
  | .decF2 q => some q
  | .decF3 q => some q
  | .decFx q => some q
  | .edgeClkRise _ _ _ => none
  | .edgeClkFall _ _ _ => none
  | .edgeGap010 => none
  | .edgeGap101 => none
  | .edgeDataHigh _ _ _ => none
  | .edgeDataWHigh _ _ _ => none
  | .edgeDataStay0 _ => none
  | .edgeDataStay1 _ => none
  | .edgeDataToggle01 => none
  | .edgeDataToggle10 => none
  | .enq _ => none
  | .deq => none
  | .publish => none
  | .release => none
  | .rd _ => none
  | .rst => none

/-- The bytes of a history word: bits 7:6 are 0. -/
def histBytes (h : HistWord) : List Byte := [0#2 ++ h]

/-- The bytes of a queue word, the lowest first. -/
def qwordBytes (q : QWord) : List Byte := [qwordByte q 0, qwordByte q 1, qwordByte q 2, qwordByte q 3]

/-- The byte of a read address: bits 7:4 are 0. -/
def rdaBytes (a : RdAddr) : List Byte := [0#4 ++ a]

/-- The format and the bytes of an instruction. ENQ, DEQ, PUBLISH, RELEASE and RST have no encoding (the opcode
table: "none (not an encoded operation; an internal step or a port event)"). -/
def encode (i : Instr) : Option (Format × List Byte) :=
  match encodeHist i, encodeQW i, i with
  | some h, _, _ => some (.hist, histBytes h)
  | none, some q, _ => some (.qw, qwordBytes q)
  | none, none, .rd a => some (.rda, rdaBytes a)
  | none, none, _ => none

/-! ## Words numbered as the opcode table numbers them -/

/-- The format of a table word of so many bits. A history word (6 bits) fills 8 bits in whole bytes; 32 bits are a
queue word. A read address also fills 8 bits in whole bytes: 8 bits are read as a history word and an address only
where the table's own 4 is given (log entry 13). -/
def tableFormat (nbits : Nat) : Option Format :=
  if nbits == 32 then some .qw
  else if nbits == 8 || nbits == 6 then some .hist
  else if nbits == 4 then some .rda
  else none

/-- How many bytes a word of a format is stored in. -/
def Format.size : Format → Nat
  | .hist => 1
  | .qw => 4
  | .rda => 1

/-- Byte `k` of the word `w`, bit 0 of `w` being the least significant. -/
def tableByte (w k : Nat) : Byte := BitVec.ofNat 8 (w >>> (8 * k))

/-- The stored bytes of a table word. -/
def tableBytes (f : Format) (w : Nat) : List Byte := (List.range f.size).map (tableByte w)

/-- The instruction the decoder reads from a table word. -/
def decodeTableWord (nbits w : Nat) : Option Instr :=
  match tableFormat nbits with
  | some f => (decode f (tableBytes f w)).instr?
  | none => none

end Sys2Proof
end

