-- ==== Sys2Proof/Machine/State.lean ====
section
/-! DEFINITION. The state of the block as plain data (spec 10_state.md, 70_reset_and_hazards.md R230), the events
that drive it, why a step can stop (never, R200), and the state after reset. -/

namespace Sys2Proof.Machine

/-- The eleven registers of the register file (R28 to R38), as names. -/
inductive RegName where
  | x
  | y
  | lt
  | rt
  | thr
  | hatx
  | haty
  | dpadx
  | dpady
  | btn
  | init
  deriving DecidableEq, Repr

/-- The controller state register file (10_state.md section 5). -/
structure RegFile where
  /-- X, joystick axis X (R28). -/
  x : BitVec 6
  /-- Y, joystick axis Y (R29). -/
  y : BitVec 6
  /-- LT, left trigger (R30). -/
  lt : BitVec 6
  /-- RT, right trigger (R31). -/
  rt : BitVec 6
  /-- THR, throttle (R32). -/
  thr : BitVec 6
  /-- HATX, two's complement (R33). -/
  hatx : BitVec 2
  /-- HATY, two's complement (R34). -/
  haty : BitVec 2
  /-- DPADX, two's complement (R35). -/
  dpadx : BitVec 2
  /-- DPADY, two's complement (R36). -/
  dpady : BitVec 2
  /-- BTN, the button mask (R37). -/
  btn : BitVec 11
  /-- INIT, the field-initialised mask (R38). -/
  init : BitVec 4
  deriving DecidableEq, Repr

/-- The register file after reset: every register 0 (R230). -/
def RegFile.reset : RegFile :=
  { x := 0#6, y := 0#6, lt := 0#6, rt := 0#6, thr := 0#6, hatx := 0#2, haty := 0#2, dpadx := 0#2,
    dpady := 0#2, btn := 0#11, init := 0#4 }

/-- One register write of a decode: the register and the value written (42_frame_decoder.md R162). The INIT write
sets the bit of one field index (R156). -/
inductive RegWrite where
  | init (f : BitVec 2)
  | x (d : BitVec 6)
  | y (d : BitVec 6)
  | lt (d : BitVec 6)
  | rt (d : BitVec 6)
  | thr (d : BitVec 6)
  | hatx (d : BitVec 2)
  | haty (d : BitVec 2)
  | dpadx (d : BitVec 2)
  | dpady (d : BitVec 2)
  | btn (d : BitVec 11)
  deriving DecidableEq, Repr

/-- The decoder phase (10_state.md R27). `writing W`: the register writes `W` are still to be performed. `W` is a set;
the list is only its listing. -/
inductive Phase where
  | idle
  | writing (pending : List RegWrite)
  deriving DecidableEq, Repr

/-- One event: a change of an input port, or one atomic step of one agent (00_scope.md R6, 30_encoding.md R82).
The order of the events is the environment's and the scheduler's choice (R204 (d), R212; log entries 1, 2, 3). -/
inductive Event where
  /-- E drives the two lines to the levels `u` without a strobe (R7, R235). -/
  | drive (u : Sample)
  /-- E strobes `edge_evt`; `src` is `edge_src`, read by no rule (R7, R44, R112). -/
  | strobe (src : Level)
  /-- Y's step PUBLISH (R133). -/
  | publish
  /-- Y's step RELEASE (R133). -/
  | release
  /-- D's step DEQ; the writes of an accepted word follow one at a time (R132, R150). -/
  | deq
  /-- D's DEQ and the whole decode in one step, one of the admitted orders (R162) and the script's `DEQ` (R82). -/
  | decode
  /-- D performs its pending write of one register (R162). -/
  | write (r : RegName)
  /-- A strobe on `rd_req` with the address on `rd_addr` (R180). -/
  | rdReq (a : RdAddr)
  /-- From here R's view lags behind D's writes (20_memory.md R57 (b); log entry 7). -/
  | lagOn
  /-- While R's view lags: D's oldest write of one register that R has not seen becomes visible to R, if the INIT
  write of its decode is (R57 (b), (c), R162). -/
  | see (r : RegName)
  /-- Every write of D becomes visible to R and R's view lags no longer (R57 (b)). -/
  | catchUp
  /-- `rst` is asserted and released (R230, R233). -/
  | rst
  /-- The level of `rst` changes; while it is `true` no agent steps (R205, R230; log entry 6). -/
  | rstLevel (on : Bool)
  deriving DecidableEq, Repr

/-- One label of the model's event history: what a run lets an observer see (20_memory.md R64), the four discards
(60_exceptions.md R201), and two labels of the model's own, `enqueued` and `reset` (log entry 15). -/
inductive Obs where
  /-- DISC_LEN with the value of `cnt`. -/
  | discLen (cnt : BitVec 5)
  /-- DISC_FULL with the dropped frame. -/
  | discFull (frame : Frame)
  /-- DISC_CRC with the rejected queue word. -/
  | discCrc (q : QWord)
  /-- DISC_FIELD with the queue word. -/
  | discField (q : QWord)
  /-- A word ENQ accepted. -/
  | enqueued (q : QWord)
  /-- A word D dequeued. -/
  | dequeued (q : QWord)
  /-- The value an RD of an address returned. -/
  | read (a : RdAddr) (d : RdWord)
  /-- A global reset. -/
  | reset
  deriving DecidableEq, Repr

/-- The machine's state (10_state.md section 1), the input levels it samples, and the model's own fields `view`,
`unseen`, `lag`, `sched` and `history` (log entries 1, 7, 15). -/
structure State where
  /-- `v`, HIST_V: the previous sample (R20). -/
  v : Sample
  /-- `w`, HIST_W: the sample before it (R21). -/
  w : Sample
  /-- `acc`: the bit accumulator (R23). -/
  acc : Frame
  /-- `cnt`: the bits folded in so far, saturating (R24). -/
  cnt : BitVec 5
  /-- `q_vis`: the entries D can see, the oldest first (R26). -/
  qVis : List QWord
  /-- `q_pend`: the entries D cannot see yet, the oldest first (R26). -/
  qPend : List QWord
  /-- `n_free_pend`: slots D has freed that S does not yet see as free (R26). -/
  nFreePend : Nat
  /-- The decoder phase (R27). -/
  phase : Phase
  /-- The register file, as D writes it (R28 to R38). -/
  regs : RegFile
  /-- The register file as the read port sees it (R57 (b); log entry 7). -/
  view : RegFile
  /-- D's writes the read port does not see yet, in the order D performed them (R57 (b), (c); log entry 7). -/
  unseen : List RegWrite
  /-- Whether the read port's view lags behind D's writes (R57 (b); log entry 7). -/
  lag : Bool
  /-- `rd_data` (R180). -/
  rdData : RdWord
  /-- The input levels `{data_in, clk_in}` (R7; log entry 4). -/
  lines : Sample
  /-- The input level `rst` (R7, R230; log entry 6). -/
  rst : Bool
  /-- The events still to come (log entry 1). -/
  sched : List Event
  /-- The event history, the newest label first (R201, R64; log entry 15). -/
  history : List Obs
  deriving DecidableEq, Repr

/-- Why a step could stop with a fault: never. No operation of the block raises an exception, traps or halts
(60_exceptions.md R200), so there is no constructor and nobody raises one. Safe: the spec gives every input an effect. -/
inductive Fault where
  deriving DecidableEq, Repr

/-- Why a step could be refused. -/
inductive Refusal where
  /-- Raised by `exec` alone, for an instruction that has no meaning yet. Safe: nothing follows from it. No arm of
  `exec` answers it now. -/
  | notModelled (mnemonic : String)
  deriving DecidableEq, Repr

/-- The machine right after reset (R230). The input levels and the model's own fields are not in R230's table: lines
low, `rst` released, nothing lagging, no event to come, no history (log entries 1, 4, 6, 7, 15). -/
def State.reset : State :=
  { v := 0b00#2, w := 0b00#2, acc := 0x00000#20, cnt := 0#5, qVis := [], qPend := [], nFreePend := 0,
    phase := .idle, regs := RegFile.reset, view := RegFile.reset, unseen := [], lag := false,
    rdData := 0x0000#16, lines := 0b00#2, rst := false, sched := [], history := [] }

end Sys2Proof.Machine
end

