-- ==== Sys2Proof/Machine/Operands.lean ====
section
/-! DEFINITION. Operand assembly: the payload window and its slices (spec 30_encoding.md R74, R79), the writes of
each decode class (42_frame_decoder.md R157 to R162), and the one addressing mode, the read address
(43_state_readout.md R180, R188; 20_memory.md R51). -/

namespace Sys2Proof.Machine

/-! ## The payload window -/

/-- The payload window `P = Q >> 4` (R74, R155). -/
def payload (q : QWord) : QWord := q >>> 4

/-- `P[7:2]`. -/
def payloadLow (q : QWord) : BitVec 6 := (payload q).extractLsb' 2 6

/-- `P[13:8]`. -/
def payloadHigh (q : QWord) : BitVec 6 := (payload q).extractLsb' 8 6

/-- `P[13:3]`. -/
def payloadButtons (q : QWord) : BitVec 11 := (payload q).extractLsb' 3 11

/-- `P[i]`. -/
def payloadBit (q : QWord) (i : Nat) : Level := (payload q).extractLsb' i 1

/-- The inverted scale of Y, `63 - raw` (R157). -/
def invertAxis (raw : BitVec 6) : BitVec 6 := 63#6 - raw

/-- The difference of two bits in 2-bit two's complement: minuend `a`, subtrahend `b` (R11, R164). -/
def bitDiff (a b : Level) : BitVec 2 := a.zeroExtend 2 - b.zeroExtend 2

/-! ## The writes of a decode -/

/-- `W(0)` with its values (R157, R162). -/
def writesF0 (q : QWord) : List RegWrite :=
  [.init 0#2, .x (payloadLow q), .y (invertAxis (payloadHigh q))]

/-- `W(1)` with its values (R158, R162). -/
def writesF1 (q : QWord) : List RegWrite :=
  [.init 1#2, .lt (payloadLow q), .rt (payloadHigh q)]

/-- `W(2)` with its values (R159, R162). -/
def writesF2 (q : QWord) : List RegWrite :=
  [.init 2#2, .thr (payloadHigh q), .hatx (bitDiff (payloadBit q 1) (payloadBit q 0)),
    .haty (bitDiff (payloadBit q 2) (payloadBit q 3)), .dpadx (bitDiff (payloadBit q 5) (payloadBit q 4)),
    .dpady (bitDiff (payloadBit q 6) (payloadBit q 7))]

/-- `W(3)` with its value (R160, R162). -/
def writesF3 (q : QWord) : List RegWrite :=
  [.init 3#2, .btn (payloadButtons q)]

/-- The writes the decode of a word performs: none for a rejected word or a field index above 3 (R154, R161). -/
def writesOf (q : QWord) : List RegWrite :=
  match classQW q with
  | .reject => []
  | .f0 => writesF0 q
  | .f1 => writesF1 q
  | .f2 => writesF2 q
  | .f3 => writesF3 q
  | .fx => []

/-- The register a write writes. -/
def RegWrite.reg : RegWrite → RegName
  | .init _ => .init
  | .x _ => .x
  | .y _ => .y
  | .lt _ => .lt
  | .rt _ => .rt
  | .thr _ => .thr
  | .hatx _ => .hatx
  | .haty _ => .haty
  | .dpadx _ => .dpadx
  | .dpady _ => .dpady
  | .btn _ => .btn

/-- The field index that owns a register (10_state.md R39); INIT belongs to no one field. -/
def RegName.field : RegName → Option (BitVec 2)
  | .x => some 0#2
  | .y => some 0#2
  | .lt => some 1#2
  | .rt => some 1#2
  | .thr => some 2#2
  | .hatx => some 2#2
  | .haty => some 2#2
  | .dpadx => some 2#2
  | .dpady => some 2#2
  | .btn => some 3#2
  | .init => none

/-! ## The read space -/

/-- The register at a read address; 11 to 15 are reserved (R51, R75). -/
def regAt (a : RdAddr) : Option RegName :=
  match a.toNat with
  | 0 => some .x
  | 1 => some .y
  | 2 => some .lt
  | 3 => some .rt
  | 4 => some .thr
  | 5 => some .hatx
  | 6 => some .haty
  | 7 => some .dpadx
  | 8 => some .dpady
  | 9 => some .btn
  | 10 => some .init
  | _ => none

/-- A register's value zero-extended to 16 bits; a direction register is not sign-extended (R180). -/
def RegFile.read (f : RegFile) : RegName → RdWord
  | .x => f.x.zeroExtend 16
  | .y => f.y.zeroExtend 16
  | .lt => f.lt.zeroExtend 16
  | .rt => f.rt.zeroExtend 16
  | .thr => f.thr.zeroExtend 16
  | .hatx => f.hatx.zeroExtend 16
  | .haty => f.haty.zeroExtend 16
  | .dpadx => f.dpadx.zeroExtend 16
  | .dpady => f.dpady.zeroExtend 16
  | .btn => f.btn.zeroExtend 16
  | .init => f.init.zeroExtend 16

/-- The word at a read address of a register file; a reserved address reads `0x0000` (R52, R180). -/
def RegFile.readAddr (f : RegFile) (a : RdAddr) : RdWord :=
  match regAt a with
  | some r => f.read r
  | none => 0x0000#16

end Sys2Proof.Machine
end

