-- ==== Sys2Proof/Machine/Flags.lean ====
section
/-! DEFINITION. The block has no flags or condition codes; its only status-like state is the mask INIT
(spec 10_state.md R42). This file holds every computation on INIT (R38, R39, R156, R184). -/

namespace Sys2Proof.Machine

/-- `1 << f` on 4 bits (R156). -/
def initBit (f : BitVec 2) : BitVec 4 := 1#4 <<< f.toNat

/-- `INIT | (1 << f)` (R156). -/
def initUpdate (mask : BitVec 4) (f : BitVec 2) : BitVec 4 := mask ||| initBit f

/-- INIT bit `f` is set: field `f` has been accepted (R38). -/
def initHas (mask : BitVec 4) (f : BitVec 2) : Bool := (mask &&& initBit f) != 0#4

/-- A register may be interpreted: the INIT bit of the field that owns it is set (R39, R184). INIT itself always may. -/
def RegFile.meaningful (f : RegFile) (r : RegName) : Bool :=
  match r.field with
  | some k => initHas f.init k
  | none => true

/-- A snapshot with this mask is fully valid (R39, R184). -/
def fullyValid (mask : BitVec 4) : Bool := mask == 0xF#4

end Sys2Proof.Machine
end

