-- ==== Sys2Proof/Machine/Ops.lean ====
section
/-! DEFINITION. The shared operations over the state: the sampler's registers (spec 40_edge_sampler.md), the FIFO
(41_frame_queue.md), the register file and its visibility (42_frame_decoder.md, 20_memory.md), the read port
(43_state_readout.md), the event history (60_exceptions.md) and reset (70_reset_and_hazards.md).
There is no operation for taking an exception or returning from one: the block has neither (R206, R207). -/

namespace Sys2Proof.Machine

/-! ## The event history -/

/-- Record a label. It sets no register and reaches no port (R201). -/
def observe (o : Obs) (s : State) : State := { s with history := o :: s.history }

/-! ## The sampler -/

/-- `w <- v`, then `v <- u` (R106). -/
def shiftHistory (u : Sample) (s : State) : State := { s with w := s.v, v := u }

/-- The saturating increment of `cnt` (R24, R102). -/
def cntIncr (c : BitVec 5) : BitVec 5 := if c == BitVec.ofNat 5 Config.cntMax then c else c + 1#5

/-- Fold one data bit: shift `acc` left, bit 19 lost, the bit into bit 0; count it (R102). -/
def foldBit (d : Level) (s : State) : State :=
  { s with acc := (s.acc <<< 1) ||| d.zeroExtend 20, cnt := cntIncr s.cnt }

/-- `acc <- 0`, `cnt <- 0` (R104). -/
def clearAcc (s : State) : State := { s with acc := 0x00000#20, cnt := 0#5 }

/-! ## The FIFO -/

/-- `occ_S`, S's view of the occupancy (R26). -/
def State.occ (s : State) : Nat := s.qVis.length + s.qPend.length + s.nFreePend

/-- The words in the FIFO, the oldest first (R26, R133). -/
def State.contents (s : State) : List QWord := s.qVis ++ s.qPend

/-- What ENQ tells S (R131). -/
inductive EnqResult where
  | ok
  | full
  deriving DecidableEq, Repr

/-- `fifo_enq` (R131): the word is dropped when S sees the FIFO full. -/
def fifoEnq (q : QWord) (s : State) : EnqResult × State :=
  if s.occ ≥ Config.qDepth then (.full, s)
  else (.ok, observe (.enqueued q) { s with qPend := s.qPend ++ [q] })

/-- S's request: ENQ, and DISC_FULL with the dropped frame when it answers FULL (R104, R131, R201; log entry 9). -/
def enqueue (q : QWord) (s : State) : State :=
  match fifoEnq q s with
  | (.ok, t) => t
  | (.full, t) => observe (.discFull (q.truncate 20)) t

/-- The atomic part of `fifo_deq`: the head `q` leaves `q_vis` and its slot is free, S does not see it yet (R132). -/
def takeHead (q : QWord) (s : State) : State :=
  observe (.dequeued q) { s with qVis := s.qVis.tail, nFreePend := s.nFreePend + 1 }

/-- PUBLISH: the oldest pending word becomes visible to D; not enabled, no step (R133). -/
def fifoPublish (s : State) : State :=
  match s.qPend with
  | q :: rest => { s with qVis := s.qVis ++ [q], qPend := rest }
  | [] => s

/-- RELEASE: one freed slot becomes visible to S; not enabled, no step (R133). -/
def fifoRelease (s : State) : State := { s with nFreePend := s.nFreePend - 1 }

/-! ## The register file -/

/-- A register file after one write (R12, R156). -/
def RegFile.apply (f : RegFile) : RegWrite → RegFile
  | .init k => { f with init := initUpdate f.init k }
  | .x d => { f with x := d }
  | .y d => { f with y := d }
  | .lt d => { f with lt := d }
  | .rt d => { f with rt := d }
  | .thr d => { f with thr := d }
  | .hatx d => { f with hatx := d }
  | .haty d => { f with haty := d }
  | .dpadx d => { f with dpadx := d }
  | .dpady d => { f with dpady := d }
  | .btn d => { f with btn := d }

/-- One atomic register write of D (R12, R55, R162). R sees it at once unless its view lags; then the write joins those
R has not seen (R57 (b); log entry 7). -/
def storeReg (k : RegWrite) (s : State) : State :=
  { s with
    regs := s.regs.apply k
    view := if s.lag then s.view else s.view.apply k
    unseen := if s.lag then s.unseen ++ [k] else s.unseen }

/-- Several writes, one after the other. -/
def storeAll (ks : List RegWrite) (s : State) : State := ks.foldl (fun t k => storeReg k t) s

/-- All writes of a decode in one step, the phase back to IDLE: one of the orders R162 admits. -/
def finishDecode (ks : List RegWrite) (s : State) : State := { storeAll ks s with phase := .idle }

/-- The pending write of register `r`, and the writes left: INIT goes first, the others in any order (R162). -/
def pickWrite (r : RegName) (ks : List RegWrite) : Option (RegWrite × List RegWrite) :=
  if r != .init && ks.any (fun k => k.reg == .init) then none
  else match ks.find? (fun k => k.reg == r) with
    | some k => some (k, ks.erase k)
    | none => none

/-- The phase with these writes still to be performed: IDLE when none is left (R27, R150). -/
def phaseOf : List RegWrite → Phase
  | [] => .idle
  | k :: ks => .writing (k :: ks)

/-- D performs its pending write of register `r`; where it has none it may perform now, no step (R162). -/
def writeStep (r : RegName) (s : State) : State :=
  match s.phase with
  | .idle => s
  | .writing ks =>
    match pickWrite r ks with
    | some (k, rest) => { storeReg k s with phase := phaseOf rest }
    | none => s

/-- What D does with a word it has dequeued: discard it, or owe its writes (R27, R150, R154, R161). -/
def beginDecode (q : QWord) (s : State) : State :=
  match classQW q with
  | .reject => observe (.discCrc q) { s with phase := .idle }
  | .f0 => { s with phase := .writing (writesF0 q) }
  | .f1 => { s with phase := .writing (writesF1 q) }
  | .f2 => { s with phase := .writing (writesF2 q) }
  | .f3 => { s with phase := .writing (writesF3 q) }
  | .fx => observe (.discField q) { s with phase := .idle }

/-- D's step DEQ: enabled in IDLE with a visible entry; else D waits, no step (R132, R150, R200). -/
def dequeueStep (s : State) : State :=
  match s.phase, s.qVis with
  | .idle, q :: _ => beginDecode q (takeHead q s)
  | .idle, [] => s
  | .writing _, _ => s

/-! ## Visibility to the read port -/

/-- The oldest unseen write of register `r` and the writes left, unless an INIT write is unseen before it. INIT writes
are seen in order, so one before it is unseen exactly while its own decode's is (R57 (b), (c), R162; log entry 7). -/
def pickUnseen (r : RegName) : List RegWrite → Option (RegWrite × List RegWrite)
  | [] => none
  | k :: ks =>
    if k.reg == r then some (k, ks)
    else if k.reg == .init then none
    else (pickUnseen r ks).map (fun p => (p.1, k :: p.2))

/-- R sees the next write of register `r`, if there is one it may see now. So R sees each register's writes in D's
order, and the registers in any order that has each decode's INIT write first (R57 (b), (c)). -/
def seeReg (r : RegName) (s : State) : State :=
  match pickUnseen r s.unseen with
  | some (k, rest) => { s with view := s.view.apply k, unseen := rest }
  | none => s

/-- R sees every write, in D's order, and its view lags no longer (R57 (b)). -/
def seeAll (s : State) : State := { s with view := s.unseen.foldl RegFile.apply s.view, unseen := [], lag := false }

/-! ## The read port -/

/-- RD: `rd_data` takes the register as R sees it (R180, R57 (b)). -/
def readPort (a : RdAddr) (s : State) : State :=
  observe (.read a (s.view.readAddr a)) { s with rdData := s.view.readAddr a }

/-! ## Reset -/

/-- Every piece of the block's state at its reset value (R230). The input levels, the events to come and the history
are no state of the block and stay (log entries 5, 15). -/
def resetBlock (s : State) : State :=
  { State.reset with lines := s.lines, rst := s.rst, sched := s.sched, history := s.history }

end Sys2Proof.Machine
end

