-- ==== Sys2Proof/Machine/FrameDecoder.lean ====
section
/-! DEFINITION. The meanings of the decode operations (spec 42_frame_decoder.md R154 to R161), each on the queue word it
is selected by, every write in one step (an order R162 admits). The same writes one at a time are D's steps after DEQ
(`dequeueStep`, `writeStep`). -/

namespace Sys2Proof.Machine

/-- DEC.REJECT: no register written, DISC_CRC (R154). -/
def execDecReject (q : QWord) (s : State) : Host.Outcome State Fault Refusal :=
  .next (observe (.discCrc q) { s with phase := .idle })

/-- DEC.F0: INIT bit 0, X, Y (R157). -/
def execDecF0 (q : QWord) (s : State) : Host.Outcome State Fault Refusal :=
  .next (finishDecode (writesF0 q) s)

/-- DEC.F1: INIT bit 1, LT, RT (R158). -/
def execDecF1 (q : QWord) (s : State) : Host.Outcome State Fault Refusal :=
  .next (finishDecode (writesF1 q) s)

/-- DEC.F2: INIT bit 2, THR, HATX, HATY, DPADX, DPADY (R159). -/
def execDecF2 (q : QWord) (s : State) : Host.Outcome State Fault Refusal :=
  .next (finishDecode (writesF2 q) s)

/-- DEC.F3: INIT bit 3, BTN (R160). -/
def execDecF3 (q : QWord) (s : State) : Host.Outcome State Fault Refusal :=
  .next (finishDecode (writesF3 q) s)

/-- DEC.FX: no register written, INIT unchanged, DISC_FIELD (R161). -/
def execDecFx (q : QWord) (s : State) : Host.Outcome State Fault Refusal :=
  .next (observe (.discField q) { s with phase := .idle })

end Sys2Proof.Machine
end

