-- ==== Sys2Proof/Machine/FrameQueue.lean ====
section
/-! DEFINITION. The meanings of ENQ, DEQ, PUBLISH and RELEASE (spec 41_frame_queue.md R131 to R133). -/

namespace Sys2Proof.Machine

/-- ENQ of any 32-bit word (R131); FULL drops it and S records the drop (log entry 9). -/
def execEnq (q : QWord) (s : State) : Host.Outcome State Fault Refusal :=
  .next (enqueue q s)

/-- DEQ, D's first step of a decode (R132, R150): an accepted word leaves D in WRITING (R27; log entry 10). -/
def execDeq (s : State) : Host.Outcome State Fault Refusal :=
  .next (dequeueStep s)

/-- PUBLISH (R133). -/
def execPublish (s : State) : Host.Outcome State Fault Refusal :=
  .next (fifoPublish s)

/-- RELEASE (R133). -/
def execRelease (s : State) : Host.Outcome State Fault Refusal :=
  .next (fifoRelease s)

end Sys2Proof.Machine
end

