-- ==== Sys2Proof/Machine/GlobalReset.lean ====
section
/-! DEFINITION. The meaning of RST (spec 70_reset_and_hazards.md R230, R231). -/

namespace Sys2Proof.Machine

/-- RST: every piece of the block's state takes its reset value (R230). -/
def execRst (s : State) : Host.Outcome State Fault Refusal :=
  .next (observe .reset (resetBlock s))

end Sys2Proof.Machine
end

