-- ==== Sys2Proof/Machine/ReadPort.lean ====
section
/-! DEFINITION. The meaning of RD (spec 43_state_readout.md R180; reserved addresses 20_memory.md R52). -/

namespace Sys2Proof.Machine

/-- RD of one address: `rd_data` only (R180). -/
def execRd (a : RdAddr) (s : State) : Host.Outcome State Fault Refusal :=
  .next (readPort a s)

end Sys2Proof.Machine
end

