-- ==== Sys2Proof/Machine/Sampler.lean ====
section
/-! DEFINITION. The meanings of EDGE.CLK, EDGE.GAP and EDGE.DATA (spec 40_edge_sampler.md R100 to R106), one per row of
30_encoding.md R76. An operation carries the sample `u` in its operands; the history shift uses the register `v` (R106).
No edge step blocks or fails (R113). -/

namespace Sys2Proof.Machine

/-- EDGE.CLK with sample `u`: fold `u[1]`, shift the history (R102, R106). -/
def edgeClk (u : Sample) (s : State) : State := shiftHistory u (foldBit (dataBit u) s)

/-- What a boundary does with the accumulator: emit exactly 20 bits, or discard; clear in every case (R104). -/
def closeFrame (s : State) : State :=
  clearAcc
    (if s.cnt == BitVec.ofNat 5 Config.frameBits then enqueue (s.acc.zeroExtend 32) s
     else observe (.discLen s.cnt) s)

/-- EDGE.GAP with sample `u`: close the frame, shift the history (R104, R106). -/
def edgeGap (u : Sample) (s : State) : State := shiftHistory u (closeFrame s)

/-- EDGE.DATA with sample `u`: only shift the history (R105, R106). -/
def edgeData (u : Sample) (s : State) : State := shiftHistory u s

/-- R76 row 1: the clock rose (R102). -/
def execEdgeClkRise (ud : Level) (s : State) : Host.Outcome State Fault Refusal :=
  .next (edgeClk (mkSample ud 1#1) s)

/-- R76 row 2: the clock fell (R102). -/
def execEdgeClkFall (ud : Level) (s : State) : Host.Outcome State Fault Refusal :=
  .next (edgeClk (mkSample ud 0#1) s)

/-- R76 row 3: the gap whose last sample is `00` (R104). -/
def execEdgeGap010 (s : State) : Host.Outcome State Fault Refusal :=
  .next (edgeGap 0b00#2 s)

/-- R76 row 4: the gap whose last sample is `10` (R104). -/
def execEdgeGap101 (s : State) : Host.Outcome State Fault Refusal :=
  .next (edgeGap 0b10#2 s)

/-- R76 row 5: the clock stayed high (R105). -/
def execEdgeDataHigh (ud : Level) (s : State) : Host.Outcome State Fault Refusal :=
  .next (edgeData (mkSample ud 1#1) s)

/-- R76 row 6: the clock high two samples ago (R105). -/
def execEdgeDataWHigh (ud : Level) (s : State) : Host.Outcome State Fault Refusal :=
  .next (edgeData (mkSample ud 0#1) s)

/-- R76 row 7: the data stayed 0 (R105, R107). -/
def execEdgeDataStay0 (s : State) : Host.Outcome State Fault Refusal :=
  .next (edgeData 0b00#2 s)

/-- R76 row 8: the data stayed 1 (R105, R107). -/
def execEdgeDataStay1 (s : State) : Host.Outcome State Fault Refusal :=
  .next (edgeData 0b10#2 s)

/-- R76 row 9: the first toggle, 0 to 1 (R105). -/
def execEdgeDataToggle01 (s : State) : Host.Outcome State Fault Refusal :=
  .next (edgeData 0b10#2 s)

/-- R76 row 10: the first toggle, 1 to 0 (R105). -/
def execEdgeDataToggle10 (s : State) : Host.Outcome State Fault Refusal :=
  .next (edgeData 0b00#2 s)

end Sys2Proof.Machine
end

