-- ==== Sys2Proof/Machine/Dispatch.lean ====
section
/-! DEFINITION. Every operation's meaning, one arm per constructor. -/

namespace Sys2Proof.Machine

/-- What an operation does to a state. -/
def exec (i : Instr) (s : State) : Host.Outcome State Fault Refusal :=
  match i with
  | .edgeClkRise _ _ ud => Sys2Proof.Machine.execEdgeClkRise ud s
  | .edgeClkFall _ _ ud => Sys2Proof.Machine.execEdgeClkFall ud s
  | .edgeGap010 => Sys2Proof.Machine.execEdgeGap010 s
  | .edgeGap101 => Sys2Proof.Machine.execEdgeGap101 s
  | .edgeDataHigh _ _ ud => Sys2Proof.Machine.execEdgeDataHigh ud s
  | .edgeDataWHigh _ _ ud => Sys2Proof.Machine.execEdgeDataWHigh ud s
  | .edgeDataStay0 _ => Sys2Proof.Machine.execEdgeDataStay0 s
  | .edgeDataStay1 _ => Sys2Proof.Machine.execEdgeDataStay1 s
  | .edgeDataToggle01 => Sys2Proof.Machine.execEdgeDataToggle01 s
  | .edgeDataToggle10 => Sys2Proof.Machine.execEdgeDataToggle10 s
  | .decReject q => Sys2Proof.Machine.execDecReject q s
  | .decF0 q => Sys2Proof.Machine.execDecF0 q s
  | .decF1 q => Sys2Proof.Machine.execDecF1 q s
  | .decF2 q => Sys2Proof.Machine.execDecF2 q s
  | .decF3 q => Sys2Proof.Machine.execDecF3 q s
  | .decFx q => Sys2Proof.Machine.execDecFx q s
  | .enq q => Sys2Proof.Machine.execEnq q s
  | .deq => Sys2Proof.Machine.execDeq s
  | .publish => Sys2Proof.Machine.execPublish s
  | .release => Sys2Proof.Machine.execRelease s
  | .rd a => Sys2Proof.Machine.execRd a s
  | .rst => Sys2Proof.Machine.execRst s

end Sys2Proof.Machine
end

