-- ==== Sys2Proof/Machine/Schedule.lean ====
section
/-! DEFINITION. How events select operations: each agent's next operation is fixed by its kind and its input
(spec 60_exceptions.md R208). The strobe selects by the history word, D by the head of `q_vis`, RD by the address.
While `rst` is asserted no agent steps (R205). -/

namespace Sys2Proof.Machine

/-- The history word of an edge step: `v` and `w` as stored, `u` the line levels at the instant of the step
(R71, R100, R101). -/
def State.histWord (s : State) : HistWord := mkHist s.w s.v s.lines

/-- D's DEQ and the whole decode in one step: the head word leaves the FIFO and the operation it selects runs.
D waits unless it is IDLE with a visible entry (R78, R132, R150, R162). -/
def decodeWhole (s : State) : Host.Outcome State Fault Refusal :=
  match s.phase, s.qVis with
  | .idle, q :: _ => exec (decodeQW q) (takeHead q s)
  | .idle, [] => .next s
  | .writing _, _ => .next s

/-- The state with `rst` at this level, if the step answers one. -/
def withRst (on : Bool) (o : Host.Outcome State Fault Refusal) : Host.Outcome State Fault Refusal :=
  match o with
  | .next t => .next { t with rst := on }
  | .fault r => .fault r
  | .refused r => .refused r

/-- One event while `rst` is asserted: the block stays at its reset values; a strobe, a request and an agent's step
are lost; only the levels of the input ports change (R205, R230). -/
def runHeld (e : Event) (s : State) : State :=
  match e with
  | .drive u => { resetBlock s with lines := u }
  | .rstLevel on => { resetBlock s with rst := on }
  | .strobe _ => resetBlock s
  | .publish => resetBlock s
  | .release => resetBlock s
  | .deq => resetBlock s
  | .decode => resetBlock s
  | .write _ => resetBlock s
  | .rdReq _ => resetBlock s
  | .lagOn => resetBlock s
  | .see _ => resetBlock s
  | .catchUp => resetBlock s
  | .rst => resetBlock s

/-- One event while `rst` is not asserted. -/
def runFree (e : Event) (s : State) : Host.Outcome State Fault Refusal :=
  match e with
  | .drive u => .next { s with lines := u }
  | .strobe _ => exec (decodeHist s.histWord) s
  | .publish => exec .publish s
  | .release => exec .release s
  | .deq => exec .deq s
  | .decode => decodeWhole s
  | .write r => .next (writeStep r s)
  | .rdReq a => exec (.rd a) s
  | .lagOn => .next { s with lag := true }
  | .see r => .next (seeReg r s)
  | .catchUp => .next (seeAll s)
  | .rst => exec .rst s
  | .rstLevel on => if on then withRst true (exec .rst s) else .next s

/-- One event (R205 decides between the two). -/
def runEvent (e : Event) (s : State) : Host.Outcome State Fault Refusal :=
  if s.rst then .next (runHeld e s) else runFree e s

/-- Several events, one after the other. -/
def runEvents : List Event → State → Host.Outcome State Fault Refusal
  | [], s => .next s
  | e :: es, s =>
    match runEvent e s with
    | .next t => runEvents es t
    | .fault r => .fault r
    | .refused r => .refused r

/-- The register D writes next when no event names one: INIT if its write is pending, else the first listed. -/
def nextReg (ks : List RegWrite) : RegName :=
  if ks.any (fun k => k.reg == .init) then .init
  else match ks with
    | k :: _ => k.reg
    | [] => .init

/-- A step with no event to come: an enabled step of D or Y happens, so that every enabled one does in the end
(R133, R212). The order among them is the model's (log entry 2). With none enabled nothing happens. -/
def idleStep (s : State) : Host.Outcome State Fault Refusal :=
  if s.rst then .next (resetBlock s)
  else match s.phase with
    | .writing ks => .next (writeStep (nextReg ks) s)
    | .idle =>
      if s.qPend.length > 0 then exec .publish s
      else if s.nFreePend > 0 then exec .release s
      else if s.qVis.length > 0 then exec .deq s
      else if s.lag then .next (seeAll s)
      else .next s

/-- One step: the next event to come, or with none to come a step of the block's own agents. -/
def runStep (s : State) : Host.Outcome State Fault Refusal :=
  match s.sched with
  | [] => idleStep s
  | e :: es => runEvent e { s with sched := es }

/-- A history word placed where the next step classifies it: `w` and `v` stored, the lines at `u`, a strobe next. -/
def placeHist (h : HistWord) (s : State) : State :=
  { s with w := histW h, v := histV h, lines := histU h, rst := false, sched := .strobe 0#1 :: s.sched }

/-- A queue word placed where the next step decodes it: the head of `q_vis`, D IDLE, a decode next. -/
def placeQW (q : QWord) (s : State) : State :=
  { s with qVis := q :: s.qVis.tail, phase := .idle, rst := false, sched := .decode :: s.sched }

/-- A read address placed on `rd_addr` with a request next. -/
def placeRda (a : RdAddr) (s : State) : State :=
  { s with rst := false, sched := .rdReq a :: s.sched }

/-- A table word placed where the next step selects its operation (log entry 1). -/
def placeTableWord (nbits w : Nat) (s : State) : State :=
  match tableFormat nbits with
  | some .hist => placeHist (BitVec.ofNat 6 w) s
  | some .qw => placeQW (BitVec.ofNat 32 w) s
  | some .rda => placeRda (BitVec.ofNat 4 w) s
  | none => s

end Sys2Proof.Machine
end

