-- ==== Sys2Proof/Machine/Step.lean ====
section
/-! DEFINITION. The step function and where a table word is placed for the next step. -/

namespace Sys2Proof.Machine

/-- One step of the machine: one event, or with none to come one step of the block's own agents (spec 00_scope.md R6,
60_exceptions.md R204 (d), R212). -/
def step (s : State) : Host.Outcome State Fault Refusal := runStep s

/-- `s` with the table word `w` of `nbits` bits where `step` takes its next operation from (log entry 1). -/
def State.withFetchWord (s : State) (nbits w : Nat) : State := placeTableWord nbits w s

end Sys2Proof.Machine
end

