-- ==== Sys2Proof/Machine/Script.lean ====
section
/-! DEFINITION. The event-script syntax of the spec (30_encoding.md R82 to R84): each statement as the events it
drives. A script starts from the line levels `(0, 0)`. -/

namespace Sys2Proof.Machine

/-- A script statement (R82) or pseudo-operation (R83, R84). -/
inductive ScriptStmt where
  /-- `E dc`. -/
  | e (u : Sample)
  /-- `SYNC`. -/
  | sync
  /-- `DEQ`. -/
  | deq
  /-- `RD a`. -/
  | rd (a : RdAddr)
  /-- `RST`. -/
  | rst
  /-- `G`. -/
  | g
  /-- `F x`. -/
  | f (x : Frame)
  deriving DecidableEq, Repr

/-- The bits of a frame in the order of the wire, bit 19 first (R84, R110). -/
def frameBitsOf (x : Frame) : List Level :=
  (List.range Config.frameBits).map (fun k => x.extractLsb' (Config.frameBits - 1 - k) 1)

/-- The samples `F` drives for these bits from line levels `l` (R84). -/
def bitSamples : List Level → Sample → List Sample
  | [], _ => []
  | b :: bs, l =>
    let clkEdge := mkSample b (~~~ clockBit l)
    (if b == dataBit l then [clkEdge] else [mkSample b (clockBit l), clkEdge]) ++ bitSamples bs clkEdge

/-- The samples `G` drives from line levels `l`, the clock low (R83). -/
def gapSamples (l : Sample) : List Sample :=
  [mkSample (~~~ dataBit l) 0#1, mkSample (dataBit l) 0#1]

/-- The samples a statement drives from line levels `l`. -/
def ScriptStmt.samples (l : Sample) : ScriptStmt → List Sample
  | .e u => [u]
  | .g => gapSamples l
  | .f x => bitSamples (frameBitsOf x) l
  | .sync => []
  | .deq => []
  | .rd _ => []
  | .rst => []

/-- The eager synchroniser's implicit `SYNC` after an ENQ or a DEQ: at most one word and one slot are pending (R82). -/
def eagerSync : List Event := [.publish, .release]

/-- `SYNC`: every pending crossing; a step that is not enabled changes nothing (R82, R133). -/
def syncEvents : List Event :=
  List.replicate Config.qDepth .publish ++ List.replicate Config.qDepth .release

/-- Drive the lines, then one strobe (R82). -/
def sampleEvents (eager : Bool) (u : Sample) : List Event :=
  .drive u :: .strobe 0#1 :: (if eager then eagerSync else [])

/-- The events of one statement from line levels `l`. -/
def ScriptStmt.events (eager : Bool) (l : Sample) : ScriptStmt → List Event
  | .e u => sampleEvents eager u
  | .g => (gapSamples l).flatMap (sampleEvents eager)
  | .f x => (bitSamples (frameBitsOf x) l).flatMap (sampleEvents eager)
  | .sync => syncEvents
  | .deq => .decode :: (if eager then eagerSync else [])
  | .rd a => [.rdReq a]
  | .rst => [.rst, .drive 0b00#2]

/-- The line levels after a statement (R82). -/
def ScriptStmt.levels (l : Sample) : ScriptStmt → Sample
  | .e u => u
  | .g => ((gapSamples l).getLast?).getD l
  | .f x => ((bitSamples (frameBitsOf x) l).getLast?).getD l
  | .sync => l
  | .deq => l
  | .rd _ => l
  | .rst => 0b00#2

/-- The events of a script from line levels `l`. -/
def scriptEvents (eager : Bool) : List ScriptStmt → Sample → List Event
  | [], _ => []
  | k :: ks, l => k.events eager l ++ scriptEvents eager ks (k.levels l)

end Sys2Proof.Machine
end

