-- ==== Sys2Proof/WellFormed.lean ====
section
/-! DEFINITION. Which instructions are well formed: the guard, mask and match of each row of the opcode table
(spec 30_encoding.md R78) on its operand, and ENQ's operand (41_frame_queue.md R131). The free bits of the history
rows and the read address admit every value (R76, R80). -/

namespace Sys2Proof

/-- `Q & 0xFFFC0000 == match`, the mask of the rows DEC.F0 to DEC.F3 (R78). -/
def fieldRowMatches (q rowMatch : QWord) : Bool := (q &&& 0xFFFC0000#32) == rowMatch

/-- Bits 31:20 of a queue word are 0 (R73, R131). -/
def topBitsZero (q : QWord) : Bool := (q &&& 0xFFF00000#32) == 0#32

/-- The guard, mask and match of the instruction's row hold of its operand. -/
def wellFormed : Instr → Bool
  | .edgeClkRise _ _ _ => true
  | .edgeClkFall _ _ _ => true
  | .edgeGap010 => true
  | .edgeGap101 => true
  | .edgeDataHigh _ _ _ => true
  | .edgeDataWHigh _ _ _ => true
  | .edgeDataStay0 _ => true
  | .edgeDataStay1 _ => true
  | .edgeDataToggle01 => true
  | .edgeDataToggle10 => true
  | .decReject q => !crcOk q
  | .decF0 q => crcOk q && fieldRowMatches q 0x00000000#32
  | .decF1 q => crcOk q && fieldRowMatches q 0x00040000#32
  | .decF2 q => crcOk q && fieldRowMatches q 0x00080000#32
  | .decF3 q => crcOk q && fieldRowMatches q 0x000C0000#32
  | .decFx q => crcOk q && !topBitsZero q
  | .enq q => topBitsZero q
  | .deq => true
  | .publish => true
  | .release => true
  | .rd _ => true
  | .rst => true

end Sys2Proof
end

