-- ==== Sys2Proof/Safety.lean ====
section
/-! DEFINITION. The terms claims use: the invariant of the block, what the event history says of the FIFO, what an
observer of the sampler sees, and quiescence. Nothing here is part of the machine. -/

namespace Sys2Proof.Machine

/-! ## The FIFO in the event history -/

/-- The words ENQ accepted since the last reset, the oldest first. -/
def acceptedWords : List Obs → List QWord
  | [] => []
  | .enqueued q :: h => acceptedWords h ++ [q]
  | .reset :: _ => []
  | .discLen _ :: h => acceptedWords h
  | .discFull _ :: h => acceptedWords h
  | .discCrc _ :: h => acceptedWords h
  | .discField _ :: h => acceptedWords h
  | .dequeued _ :: h => acceptedWords h
  | .read _ _ :: h => acceptedWords h

/-- The words D dequeued since the last reset, the oldest first. -/
def dequeuedWords : List Obs → List QWord
  | [] => []
  | .dequeued q :: h => dequeuedWords h ++ [q]
  | .reset :: _ => []
  | .discLen _ :: h => dequeuedWords h
  | .discFull _ :: h => dequeuedWords h
  | .discCrc _ :: h => dequeuedWords h
  | .discField _ :: h => dequeuedWords h
  | .enqueued _ :: h => dequeuedWords h
  | .read _ _ :: h => dequeuedWords h

/-- The accepted words are the dequeued ones followed by the FIFO's contents: order kept, none lost, none twice
(41_frame_queue.md R134, R135). -/
def State.FifoLogged (s : State) : Prop :=
  acceptedWords s.history = dequeuedWords s.history ++ s.contents

/-- While `rst` is asserted the block is at its reset values (70_reset_and_hazards.md R230). -/
def State.HeldAtReset (s : State) : Prop := s.rst = true → resetBlock s = s

/-- R's view is D's register file but for the writes R has not seen, and there are none unless it lags (20_memory.md
R57 (b)). -/
def State.ViewInSync (s : State) : Prop :=
  s.unseen.foldl RegFile.apply s.view = s.regs ∧ (s.lag = false → s.unseen = [])

/-- The writes of register `r` that R has not seen, the oldest first. -/
def State.unseenOf (s : State) (r : RegName) : List RegWrite := s.unseen.filter (fun k => k.reg == r)

/-! ## The register file -/

/-- No direction register holds the pattern `0b10` (10_state.md R33 to R36). -/
def RegFile.dirsLegal (f : RegFile) : Prop :=
  f.hatx ≠ 0b10#2 ∧ f.haty ≠ 0b10#2 ∧ f.dpadx ≠ 0b10#2 ∧ f.dpady ≠ 0b10#2

/-- A register whose field's INIT bit is clear holds its reset value (10_state.md R39). -/
def RegFile.unsetAtReset (f : RegFile) : Prop :=
  ∀ r : RegName, f.meaningful r = false → f.read r = 0x0000#16

/-- The write's value is one the register may hold. -/
def RegWrite.legal : RegWrite → Prop
  | .hatx d => d ≠ 0b10#2
  | .haty d => d ≠ 0b10#2
  | .dpadx d => d ≠ 0b10#2
  | .dpady d => d ≠ 0b10#2
  | .init _ => True
  | .x _ => True
  | .y _ => True
  | .lt _ => True
  | .rt _ => True
  | .thr _ => True
  | .btn _ => True

/-- The write belongs to field `f`: INIT bit `f`, or a register field `f` owns (R163). -/
def RegWrite.ofField (f : BitVec 2) (k : RegWrite) : Prop :=
  k = .init f ∨ k.reg.field = some f

/-- Unseen writes, seen in order from the view `f`: each has a value its register may hold, and each write of a field
finds the field's INIT bit seen (20_memory.md R57 (c), 42_frame_decoder.md R162). -/
def UnseenOk (f : RegFile) : List RegWrite → Prop
  | [] => True
  | k :: ks => k.legal ∧ (∀ n : BitVec 2, k.reg.field = some n → initHas f.init n = true) ∧ UnseenOk (f.apply k) ks

/-- The pending writes of a decode in progress: some, of one field, one for each register, and INIT's bit set once
its write is no longer pending (R27, R162). -/
def PendingOk (ks : List RegWrite) (mask : BitVec 4) : Prop :=
  ks ≠ [] ∧ (ks.map RegWrite.reg).Nodup ∧
    ∃ f : BitVec 2, (∀ k ∈ ks, k.legal ∧ k.ofField f) ∧ (.init f ∈ ks ∨ initHas mask f = true)

/-! ## The invariant -/

/-- What holds of the block at every step, whatever the schedule. -/
structure State.Inv (s : State) : Prop where
  /-- `occ_S <= QDEPTH` (R26). -/
  occ : s.occ ≤ Config.qDepth
  /-- Bits 31:20 of every word in the FIFO are 0 (R73). -/
  words : ∀ q ∈ s.contents, topBitsZero q = true
  /-- While `cnt <= 20`, `acc[19:cnt]` is zero (R23). -/
  accBits : s.cnt.toNat ≤ Config.frameBits → s.acc.toNat < 2 ^ s.cnt.toNat
  /-- A decode in progress is one of those DEQ begins (R27). -/
  pending : ∀ ks, s.phase = .writing ks → PendingOk ks s.regs.init
  /-- The direction registers hold −1, 0 or +1 (R33 to R36). -/
  regsDirs : s.regs.dirsLegal
  /-- And so R sees them. -/
  viewDirs : s.view.dirsLegal
  /-- A register whose INIT bit is clear holds its reset value (R39). -/
  regsUnset : s.regs.unsetAtReset
  /-- And so R sees it: INIT becomes visible before the registers of its field (R57 (c), R162). -/
  viewUnset : s.view.unsetAtReset
  /-- R sees no INIT bit that D has not set. -/
  viewInit : s.view.init &&& s.regs.init = s.view.init
  /-- R's view is D's register file but for the unseen writes, of which there are none unless it lags (R57 (b)). -/
  viewSync : s.ViewInSync
  /-- The unseen writes come with their INIT bits before them (R57 (c), R162). -/
  unseenOk : UnseenOk s.view s.unseen
  /-- While `rst` is asserted the block is at its reset values (R230). -/
  held : s.HeldAtReset
  /-- FIFO order, exactly once (R134, R135). -/
  logged : s.FifoLogged
  /-- The bits of `rd_data` above the widest register are 0 (R180). -/
  rdBits : s.rdData.toNat < 2 ^ 11

/-! ## The sampler as an observer sees it -/

/-- The sampler's registers. -/
def State.sampler (s : State) : Sample × Sample × Frame × BitVec 5 := (s.v, s.w, s.acc, s.cnt)

/-- The operation an edge step with sample `u` selects in a state (R100). -/
def edgeOp (u : Sample) (s : State) : Instr := decodeHist (mkHist s.w s.v u)

/-- The ENQ request one edge step from `s` to `t` made, as the history shows it: accepted, or dropped as FULL. -/
def requestSeen (s t : State) : List QWord :=
  match t.history with
  | .enqueued q :: h => if h = s.history then [q] else []
  | .discFull x :: h => if h = s.history then [x.zeroExtend 32] else []
  | _ => []

/-- Edge steps on a sequence of samples: the state after them and the ENQ requests they made, in order. -/
def edgeSteps : List Sample → State → Option (State × List QWord)
  | [], s => some (s, [])
  | u :: us, s =>
    match exec (edgeOp u s) s with
    | .next t => (edgeSteps us t).map (fun p => (p.1, requestSeen s t ++ p.2))
    | .fault _ => none
    | .refused _ => none

/-- No sample of the sequence completes a gap, from the samples `w` and `v` before it. -/
def gapFree : Sample → Sample → List Sample → Bool
  | _, _, [] => true
  | w, v, u :: us => classHist (mkHist w v u) != .gap && gapFree v u us

/-- The data bits a sequence of samples folds after the sample `v`: the data level at each change of the clock. -/
def foldedBits : Sample → List Sample → List Level
  | _, [] => []
  | v, u :: us => if clockBit u = clockBit v then foldedBits u us else dataBit u :: foldedBits u us

/-- The number a list of bits writes, the first bit in the highest position. -/
def bitsValue (bs : List Level) : Nat := bs.foldl (fun n b => 2 * n + b.toNat) 0

/-- S's requests and Y's PUBLISH steps in a given order: `some q` is an ENQ of `q`, `none` a PUBLISH. The result of
every ENQ, in order, and the state after them. -/
def enqRun : List (Option QWord) → State → List EnqResult × State
  | [], s => ([], s)
  | some q :: es, s =>
    let a := fifoEnq q s
    let b := enqRun es a.2
    (a.1 :: b.1, b.2)
  | none :: es, s => enqRun es (fifoPublish s)

/-! ## Quiescence -/

/-- Nothing is left to do: the FIFO empty and every slot seen as free, D idle, R's view up to date. -/
def State.Quiescent (s : State) : Prop :=
  s.qVis = [] ∧ s.qPend = [] ∧ s.nFreePend = 0 ∧ s.phase = .idle ∧ s.lag = false ∧ s.unseen = []

/-- The event resets the block. -/
def Event.resets : Event → Bool
  | .rst => true
  | .rstLevel on => on
  | .drive _ => false
  | .strobe _ => false
  | .publish => false
  | .release => false
  | .deq => false
  | .decode => false
  | .write _ => false
  | .rdReq _ => false
  | .lagOn => false
  | .see _ => false
  | .catchUp => false

/-! ## What an event may change -/

/-- The line levels after an event while `rst` is asserted: E drives them, nothing else does. -/
def Event.linesAfter (lines : Sample) : Event → Sample
  | .drive u => u
  | .strobe _ => lines
  | .publish => lines
  | .release => lines
  | .deq => lines
  | .decode => lines
  | .write _ => lines
  | .rdReq _ => lines
  | .lagOn => lines
  | .see _ => lines
  | .catchUp => lines
  | .rst => lines
  | .rstLevel _ => lines

/-- The level of `rst` after an event while it is asserted. -/
def Event.rstAfter : Event → Bool
  | .rstLevel on => on
  | .drive _ => true
  | .strobe _ => true
  | .publish => true
  | .release => true
  | .deq => true
  | .decode => true
  | .write _ => true
  | .rdReq _ => true
  | .lagOn => true
  | .see _ => true
  | .catchUp => true
  | .rst => true

/-- From `s` to `t` the event changed only what its agent may write (10_state.md R43): the lines by E; `v`, `w`, `acc`,
`cnt` and the FIFO tail by S; the FIFO's views by Y; the FIFO head, the phase and the register file (and so R's view of
it) by D; `rd_data` by R. The model's history may change too. -/
def Event.OwnStateOnly (s t : State) : Event → Prop
  | .drive u => t = { s with lines := u }
  | .strobe _ =>
    t = { s with v := t.v, w := t.w, acc := t.acc, cnt := t.cnt, qPend := t.qPend, history := t.history }
  | .publish => t = { s with qVis := t.qVis, qPend := t.qPend }
  | .release => t = { s with nFreePend := t.nFreePend }
  | .deq => t = { s with qVis := t.qVis, nFreePend := t.nFreePend, phase := t.phase, history := t.history }
  | .decode =>
    t = { s with qVis := t.qVis, nFreePend := t.nFreePend, phase := t.phase, regs := t.regs, view := t.view,
                 unseen := t.unseen, history := t.history }
  | .write _ => t = { s with phase := t.phase, regs := t.regs, view := t.view, unseen := t.unseen }
  | .rdReq _ => t = { s with rdData := t.rdData, history := t.history }
  | .lagOn => t = { s with lag := true }
  | .see _ => t = { s with view := t.view, unseen := t.unseen }
  | .catchUp => t = { s with view := t.view, unseen := [], lag := false }
  | .rst => t.sched = s.sched ∧ t.lines = s.lines ∧ t.rst = false
  | .rstLevel on => t.sched = s.sched ∧ t.lines = s.lines ∧ t.rst = on

end Sys2Proof.Machine
end

