-- ==== Sys2Proof/Certificates/Slice0/Obligations.lean ====
section
/-! DEFINITION. The statements for the provers. OBLIGATIONS.json lists them with the rules they rest on. -/

open Sys2Proof Sys2Proof.Machine

/-! ## Encoding -/

/-- Words written out from the tables of R76, R78 and R75 decode to the operations they stand for: H = `00 00 01`,
`10 00 10`, `11 10 00`; the frames f0 to f3 of 95_test_vectors.md and three words it classifies; `rd_addr` 9. The bytes
that carry a word are the model's choice (log entry 13). -/
def Obligations.KnownWordsDecode : Prop :=
  decode .hist [0b00000001#8] = .instr (.edgeClkRise 0b00#2 0#1 0#1) ∧
  decode .hist [0b00100010#8] = .instr .edgeGap101 ∧
  decode .hist [0b00111000#8] = .instr (.edgeDataWHigh 1#1 1#1 0#1) ∧
  decode .hist [0b01000001#8] = .refused .bitsAboveWidth ∧
  decode .qw [0xC3#8, 0x0F#8, 0x00#8, 0x00#8] = .instr (.decF0 0x00000FC3#32) ∧
  decode .qw [0x85#8, 0x22#8, 0x07#8, 0x00#8] = .instr (.decF1 0x00072285#32) ∧
  decode .qw [0xA9#8, 0x17#8, 0x0A#8, 0x00#8] = .instr (.decF2 0x000A17A9#32) ∧
  decode .qw [0x81#8, 0xC1#8, 0x0E#8, 0x00#8] = .instr (.decF3 0x000EC181#32) ∧
  decode .qw [0x0B#8, 0x00#8, 0x10#8, 0x00#8] = .instr (.decFx 0x0010000B#32) ∧
  decode .qw [0xC2#8, 0x0F#8, 0x00#8, 0x00#8] = .instr (.decReject 0x00000FC2#32) ∧
  decode .rda [0x09#8] = .instr (.rd 9#4)

/-- R76: the class of every history word is the one its ordered tests give, exactly one row of the mask and match
table selects it and that row is of its class, and the classes cover 32, 2 and 30 words. -/
def Obligations.EveryHistoryWordSelectsExactlyOneRow : Prop :=
  (∀ w v u : Sample,
    classHist (mkHist w v u) =
      (if (u.getLsbD 0 ^^ v.getLsbD 0) = true then .clk
       else if (u.getLsbD 0 = false ∧ v.getLsbD 0 = false ∧ w.getLsbD 0 = false) ∧
           (u.getLsbD 1 ^^ v.getLsbD 1) = true ∧ (v.getLsbD 1 ^^ w.getLsbD 1) = true then .gap
       else .data)) ∧
  (∀ h : HistWord,
    (([ (0b000101#6, 0b000001#6, EdgeClass.clk), (0b000101#6, 0b000100#6, .clk),
        (0b111111#6, 0b001000#6, .gap), (0b111111#6, 0b100010#6, .gap),
        (0b000101#6, 0b000101#6, .data), (0b010101#6, 0b010000#6, .data),
        (0b011111#6, 0b000000#6, .data), (0b011111#6, 0b001010#6, .data),
        (0b111111#6, 0b000010#6, .data), (0b111111#6, 0b101000#6, .data) ] :
        List (HistWord × HistWord × EdgeClass)).filter (fun r => h &&& r.1 == r.2.1)).map (fun r => r.2.2)
      = [classHist h]) ∧
  ((List.range 64).filter (fun n => classHist (BitVec.ofNat 6 n) == .clk)).length = 32 ∧
  ((List.range 64).filter (fun n => classHist (BitVec.ofNat 6 n) == .gap)).length = 2 ∧
  ((List.range 64).filter (fun n => classHist (BitVec.ofNat 6 n) == .data)).length = 30

/-- R78: the ordered tests on a queue word, in numbers, and the mask and match table with its guards. -/
def Obligations.EveryQueueWordSelectsOneDecodeClass : Prop :=
  ∀ q : QWord,
    decodeQW q =
      (if crcOk q = false then .decReject q
       else if q.toNat / 2 ^ 18 = 0 then .decF0 q
       else if q.toNat / 2 ^ 18 = 1 then .decF1 q
       else if q.toNat / 2 ^ 18 = 2 then .decF2 q
       else if q.toNat / 2 ^ 18 = 3 then .decF3 q
       else .decFx q) ∧
    (crcOk q = true →
      (decodeQW q = .decF0 q ↔ q &&& 0xFFFC0000#32 = 0x00000000#32) ∧
      (decodeQW q = .decF1 q ↔ q &&& 0xFFFC0000#32 = 0x00040000#32) ∧
      (decodeQW q = .decF2 q ↔ q &&& 0xFFFC0000#32 = 0x00080000#32) ∧
      (decodeQW q = .decF3 q ↔ q &&& 0xFFFC0000#32 = 0x000C0000#32) ∧
      (decodeQW q = .decFx q ↔ q &&& 0xFFF00000#32 ≠ 0#32))

/-- Decoding the bytes of a well-formed encoded instruction gives the instruction back, for every instruction that has
an encoding (R76, R78, R75). The bytes that carry a word are the model's choice (log entry 13). -/
def Obligations.DecodeOfEncodeIsTheInstruction : Prop :=
  ∀ (i : Instr) (f : Format) (bs : List Byte),
    wellFormed i = true → encode i = some (f, bs) → decode f bs = .instr i

/-- Every list of bytes the decoder reads as an instruction is that instruction's encoding, and the instruction is
well formed: no two words mean the same operation, and no word is read outside its row. The bytes that carry a word are
the model's choice (log entry 13). -/
def Obligations.EncodeOfDecodeIsTheBytes : Prop :=
  ∀ (f : Format) (bs : List Byte) (i : Instr),
    decode f bs = .instr i → encode i = some (f, bs) ∧ wellFormed i = true

/-! ## The checksum -/

/-- R151 and R152 in numbers: the fold, the shift count and the accept test. -/
def Obligations.AcceptTestIsTheNormativeFormula : Prop :=
  ∀ q : QWord,
    (crcFold q).toNat = (q.toNat ^^^ (q.toNat / 2 ^ 7)) ^^^ (q.toNat / 2 ^ 14) ∧
    ((((crcFold q).toNat >>> 2) &&& 0x1c) % 4 = 0 ∧ (((crcFold q).toNat >>> 2) &&& 0x1c) ≤ 28) ∧
    (crcOk q = true ↔
      ((crcFold q).toNat ^^^ (0x25cb9e70 >>> (((crcFold q).toNat >>> 2) &&& 0x1c))) &&& 0xF = 0)

/-- R153, the table form: a word is accepted exactly when `crc[3:0] = T[crc[6:4]]`. -/
def Obligations.AcceptTestIsTheNibbleTable : Prop :=
  ∀ q : QWord,
    (crcOk q = true ↔
      ((crcFold q).extractLsb' 0 4).toNat
        = [0x0, 0x7, 0xE, 0x9, 0xB, 0xC, 0x5, 0x2].getD ((crcFold q).extractLsb' 4 3).toNat 0)

/-- R153: for every 16-bit prefix exactly one check nibble makes the frame accepted. -/
def Obligations.ExactlyOneCheckNibblePerPrefix : Prop :=
  ∀ p : BitVec 16, ∃ c : BitVec 4, ∀ c' : BitVec 4,
    (crcOk ((p ++ c' : Frame).zeroExtend 32) = true ↔ c' = c)

/-- R153: every single-bit error in an accepted 20-bit frame makes it rejected. -/
def Obligations.EverySingleBitErrorIsRejected : Prop :=
  ∀ (x : Frame) (i : Nat), i < 20 → crcOk (x.zeroExtend 32) = true →
    crcOk ((x ^^^ (1#20 <<< i)).zeroExtend 32) = false

/-- R153: the accepted 20-bit words are closed under XOR, and the all-zero frame is one of them. -/
def Obligations.AcceptedFramesAreClosedUnderXor : Prop :=
  crcOk 0#32 = true ∧
  ∀ x y : Frame, crcOk (x.zeroExtend 32) = true → crcOk (y.zeroExtend 32) = true →
    crcOk ((x ^^^ y).zeroExtend 32) = true

/-! ## The sampler -/

/-- R102: a step is an EDGE.CLK exactly when `u[0] != v[0]`; it shifts the data level into `acc`, bit 19 of the old
`acc` lost, counts with saturation at 31, then shifts the history, and changes nothing else. -/
def Obligations.EveryClockChangeFoldsTheDataLevel : Prop :=
  ∀ (s : State) (u : Sample),
    (classHist (mkHist s.w s.v u) = .clk ↔ u.getLsbD 0 ≠ s.v.getLsbD 0) ∧
    (u.getLsbD 0 ≠ s.v.getLsbD 0 →
      exec (edgeOp u s) s = .next
        { s with acc := BitVec.ofNat 20 (2 * s.acc.toNat + (u.getLsbD 1).toNat),
                 cnt := if s.cnt = 31#5 then 31#5 else s.cnt + 1#5, w := s.v, v := u })

/-- R105: a step whose clock level did not change and which is no gap is an EDGE.DATA: `acc`, `cnt` and the FIFO stay,
only `w` and `v` are written. -/
def Obligations.EveryDataOnlyEdgeLeavesTheAccumulator : Prop :=
  ∀ (s : State) (u : Sample),
    (classHist (mkHist s.w s.v u) = .data ↔ u.getLsbD 0 = s.v.getLsbD 0 ∧ gap u s.v s.w = false) ∧
    (u.getLsbD 0 = s.v.getLsbD 0 → gap u s.v s.w = false →
      exec (edgeOp u s) s = .next { s with w := s.v, v := u })

/-- The operations EDGE.CLK by row: either edge shifts the operand's data level into `acc`, counts with saturation at
31, shifts the history and changes nothing else, in any state. That an operation carries its own sample, whatever `v`
and `w` are, is the model's choice (log entry 11). -/
def Obligations.ClockEdgeFoldsTheDataBit : Prop :=
  ∀ (s : State) (w : Sample) (vd ud : Level),
    exec (.edgeClkRise w vd ud) s = .next
      { s with acc := BitVec.ofNat 20 (2 * s.acc.toNat + ud.toNat),
               cnt := BitVec.ofNat 5 (min (s.cnt.toNat + 1) 31), w := s.v, v := ud ++ 1#1 } ∧
    exec (.edgeClkFall w vd ud) s = .next
      { s with acc := BitVec.ofNat 20 (2 * s.acc.toNat + ud.toNat),
               cnt := BitVec.ofNat 5 (min (s.cnt.toNat + 1) 31), w := s.v, v := ud ++ 0#1 }

/-- R104, R131: EDGE.GAP emits the frame when exactly 20 bits were folded and S sees room, drops it (DISC_FULL) when S
sees the FIFO full, discards any other count (DISC_LEN); it clears `acc` and `cnt` in every case, shifts the history
and changes nothing else. The label of an accepted word and the operand's own sample are the model's choice (log
entries 15 and 11). -/
def Obligations.GapEmitsOrDiscardsAndClears : Prop :=
  ∀ (s : State) (i : Instr) (u : Sample),
    (i = .edgeGap010 ∧ u = 0b00#2) ∨ (i = .edgeGap101 ∧ u = 0b10#2) →
    exec i s = .next
      (if s.cnt = 20#5 then
        if s.qVis.length + s.qPend.length + s.nFreePend < 10 then
          { s with acc := 0#20, cnt := 0#5, w := s.v, v := u, qPend := s.qPend ++ [s.acc.zeroExtend 32],
                   history := .enqueued (s.acc.zeroExtend 32) :: s.history }
        else { s with acc := 0#20, cnt := 0#5, w := s.v, v := u, history := .discFull s.acc :: s.history }
      else { s with acc := 0#20, cnt := 0#5, w := s.v, v := u, history := .discLen s.cnt :: s.history })

/-- The operations EDGE.DATA by row: each of the six only shifts the history, in any state. That an operation carries
its own sample is the model's choice (log entry 11). -/
def Obligations.DataEdgeOnlyShiftsTheHistory : Prop :=
  ∀ (s : State) (w : Sample) (wd vd ud : Level),
    exec (.edgeDataHigh w vd ud) s = .next { s with w := s.v, v := ud ++ 1#1 } ∧
    exec (.edgeDataWHigh wd vd ud) s = .next { s with w := s.v, v := ud ++ 0#1 } ∧
    exec (.edgeDataStay0 wd) s = .next { s with w := s.v, v := 0b00#2 } ∧
    exec (.edgeDataStay1 wd) s = .next { s with w := s.v, v := 0b10#2 } ∧
    exec .edgeDataToggle01 s = .next { s with w := s.v, v := 0b10#2 } ∧
    exec .edgeDataToggle10 s = .next { s with w := s.v, v := 0b00#2 }

/-- R106: every edge step, whatever its class, ends with `w` the old `v` and `v` the current sample. -/
def Obligations.EveryEdgeStepShiftsTheHistory : Prop :=
  ∀ (s : State) (u : Sample), ∃ t : State,
    exec (edgeOp u s) s = .next t ∧ t.w = s.v ∧ t.v = u

/-- R108: if both lines changed the step is an EDGE.CLK and folds `u[1]`, the new data level. -/
def Obligations.BothLinesChangedFoldsTheNewLevel : Prop :=
  ∀ (s : State) (u : Sample), u ^^^ s.v = 0b11#2 →
    classHist (mkHist s.w s.v u) = .clk ∧
    exec (edgeOp u s) s = .next
      { s with acc := BitVec.ofNat 20 (2 * s.acc.toNat + (u.getLsbD 1).toNat),
               cnt := BitVec.ofNat 5 (min (s.cnt.toNat + 1) 31), w := s.v, v := u }

/-- R107: an event at which no line changed is an EDGE.DATA that changes no `acc` or `cnt` and only shifts the history,
`w` becoming equal to `v`; the event after it is no gap, whatever its sample. -/
def Obligations.NoChangeEventSuppressesTheNextGap : Prop :=
  ∀ s : State, ∃ t : State,
    classHist (mkHist s.w s.v s.v) = .data ∧
    exec (edgeOp s.v s) s = .next t ∧ t = { s with w := s.v } ∧
    ∀ u : Sample, classHist (mkHist t.w t.v u) ≠ .gap

/-- R23, R24, R102, R105, R110: from an empty accumulator, any samples none of which completes a gap, with any data-only
edges among them: `cnt` is the number of clock edges, at most 31; while there are at most 20, `acc` is the number their
data bits write with the first bit highest; `cnt` is 20 exactly when there were 20. No request is made and nothing but
the sampler's registers changes. -/
def Obligations.FoldedBitsStandInWireOrder : Prop :=
  ∀ (s : State) (us : List Sample), s.acc = 0#20 → s.cnt = 0#5 → gapFree s.w s.v us = true → ∃ t : State,
    edgeSteps us s = some (t, []) ∧
    t.cnt.toNat = min (foldedBits s.v us).length 31 ∧
    ((foldedBits s.v us).length ≤ 20 → t.acc.toNat = bitsValue (foldedBits s.v us)) ∧
    (t.cnt = 20#5 ↔ (foldedBits s.v us).length = 20) ∧
    t = { s with acc := t.acc, cnt := t.cnt, v := t.v, w := t.w }

/-- R115: two states with the same sampler registers make the same ENQ requests on the same samples and keep the same
sampler registers, whatever the rest of the block is. A request is read off the model's history (log entry 15). -/
def Obligations.RequestsDependOnTheSamplesAlone : Prop :=
  ∀ (s₁ s₂ : State) (us : List Sample), s₁.sampler = s₂.sampler →
    ∃ (t₁ t₂ : State) (qs : List QWord),
      edgeSteps us s₁ = some (t₁, qs) ∧ edgeSteps us s₂ = some (t₂, qs) ∧ t₁.sampler = t₂.sampler

/-- R116: after a gap `acc` and `cnt` are 0; two samplers that have each just completed a gap with the same `v` and `w`
are equal, and make the same requests for the same following samples, whatever came before. A request is read off the
model's history (log entry 15). -/
def Obligations.AGapResynchronisesTheSampler : Prop :=
  ∀ (s₁ s₂ : State) (u₁ u₂ : Sample) (us : List Sample),
    classHist (mkHist s₁.w s₁.v u₁) = .gap → classHist (mkHist s₂.w s₂.v u₂) = .gap →
    ∃ t₁ t₂ : State,
      exec (edgeOp u₁ s₁) s₁ = .next t₁ ∧ exec (edgeOp u₂ s₂) s₂ = .next t₂ ∧
      t₁.acc = 0#20 ∧ t₁.cnt = 0#5 ∧ t₂.acc = 0#20 ∧ t₂.cnt = 0#5 ∧
      (t₁.v = t₂.v → t₁.w = t₂.w →
        t₁.sampler = t₂.sampler ∧
        ∃ (r₁ r₂ : State) (qs : List QWord),
          edgeSteps us t₁ = some (r₁, qs) ∧ edgeSteps us t₂ = some (r₂, qs) ∧ r₁.sampler = r₂.sampler)

/-- R114: whatever the step, a word enters the FIFO only in a strobe's gap step with `cnt = 20`, and it is
`zext_32(acc)`. -/
def Obligations.OnlyCompleteFramesEnterTheFifo : Prop :=
  ∀ s t : State, step s = .next t → s.qPend.length < t.qPend.length →
    (∃ (src : Level) (es : List Event), s.sched = .strobe src :: es) ∧ s.rst = false ∧
    classHist s.histWord = .gap ∧ s.cnt = 20#5 ∧ t.qPend = s.qPend ++ [s.acc.zeroExtend 32]

/-- R232: the first edge step after reset for each sample, none of them a gap; and the samples `10`, `00` give a gap
with `cnt = 0`, a DISC_LEN. The history that holds the label is the model's own (log entry 15). -/
def Obligations.FirstEdgeStepsAfterReset : Prop :=
  (∀ u : Sample, classHist (mkHist State.reset.w State.reset.v u) ≠ .gap) ∧
  exec (edgeOp 0b00#2 State.reset) State.reset = .next State.reset ∧
  exec (edgeOp 0b01#2 State.reset) State.reset = .next { State.reset with v := 0b01#2, cnt := 1#5 } ∧
  exec (edgeOp 0b10#2 State.reset) State.reset = .next { State.reset with v := 0b10#2 } ∧
  exec (edgeOp 0b11#2 State.reset) State.reset = .next { State.reset with v := 0b11#2, acc := 1#20, cnt := 1#5 } ∧
  classHist (mkHist 0b00#2 0b10#2 0b00#2) = .gap ∧
  runEvents [.drive 0b10#2, .strobe 1#1, .drive 0b00#2, .strobe 1#1] State.reset
    = .next { State.reset with w := 0b10#2, history := [.discLen 0#5] }

/-- R112: the identity of the line that raised the strobe is ignored. -/
def Obligations.TheStrobingLineIsIgnored : Prop :=
  ∀ (s : State) (a b : Level), runEvent (.strobe a) s = runEvent (.strobe b) s

/-! ## The FIFO -/

/-- R131: ENQ of any word appends it when S sees fewer than 10 entries, else drops it; nothing else changes but the
history's label. The label of an accepted word and the DISC_FULL of a lone ENQ are the model's choice (log entries 9
and 15). -/
def Obligations.EnqAppendsOrDropsTheNewest : Prop :=
  ∀ (s : State) (q : QWord),
    exec (.enq q) s = .next
      (if s.qVis.length + s.qPend.length + s.nFreePend < 10 then
        { s with qPend := s.qPend ++ [q], history := .enqueued q :: s.history }
      else { s with history := .discFull (q.extractLsb' 0 20) :: s.history })

/-- R132, R150, R27: DEQ in IDLE takes the oldest visible word and frees its slot; an accepted word of field 0 to 3
leaves its writes pending, any other word is discarded with its label; nothing else changes. That one DEQ step also
classifies the word, and the label of the dequeued word, are the model's choice (log entries 10 and 15). -/
def Obligations.DeqTakesTheOldestVisibleWord : Prop :=
  ∀ (s : State) (q : QWord) (rest : List QWord), s.phase = .idle → s.qVis = q :: rest →
    exec .deq s = .next
      (if crcOk q = false then
        { s with qVis := rest, nFreePend := s.nFreePend + 1,
                 history := .discCrc q :: .dequeued q :: s.history }
      else if 3 < q.toNat / 2 ^ 18 then
        { s with qVis := rest, nFreePend := s.nFreePend + 1,
                 history := .discField q :: .dequeued q :: s.history }
      else
        { s with qVis := rest, nFreePend := s.nFreePend + 1, phase := .writing (writesOf q),
                 history := .dequeued q :: s.history })

/-- R132, R150, R162: D waits, nothing changing, while no entry is visible and while a decode's writes are pending;
the one-step decode waits alike. That a step not enabled changes nothing is the model's choice (log entry 3). -/
def Obligations.DecoderWaitsWithoutAVisibleEntryOrWhileWriting : Prop :=
  ∀ s : State, s.qVis = [] ∨ s.phase ≠ .idle →
    exec .deq s = .next s ∧ (s.rst = false → runEvent .decode s = .next s)

/-- R133: PUBLISH moves the oldest pending word to the end of the visible ones, RELEASE hands one freed slot back;
where not enabled each changes nothing, which is the model's choice (log entry 3). -/
def Obligations.PublishAndReleaseCrossOneAtATime : Prop :=
  ∀ s : State,
    (∀ (q : QWord) (rest : List QWord), s.qPend = q :: rest →
      exec .publish s = .next { s with qVis := s.qVis ++ [q], qPend := rest }) ∧
    (s.qPend = [] → exec .publish s = .next s) ∧
    (∀ n : Nat, s.nFreePend = n + 1 → exec .release s = .next { s with nFreePend := n }) ∧
    (s.nFreePend = 0 → exec .release s = .next s)

/-- R137: from an empty FIFO as S sees it, with neither DEQ nor RELEASE, the first 10 ENQs answer OK and every one
after them FULL, PUBLISH steps falling anywhere, and the FIFO holds the first 10 words in order; with DEQs running, S
may see FULL while fewer than 10 words are stored. -/
def Obligations.TenEnqueuesSucceedThenEveryOneIsFull : Prop :=
  (∀ (s : State) (es : List (Option QWord)), s.occ = 0 →
    (enqRun es s).1 = List.replicate (min (es.filterMap id).length 10) .ok
        ++ List.replicate ((es.filterMap id).length - 10) .full ∧
    (enqRun es s).2.contents = (es.filterMap id).take 10) ∧
  (∃ (s : State) (q : QWord), s.Inv ∧ s.contents.length < 10 ∧ (fifoEnq q s).1 = .full)

/-- R134, R135: whatever the step, the accepted words stay the dequeued ones followed by the FIFO's contents: order
kept, each word once, none invented or altered. The history they are read off is the model's own (log entry 15). -/
def Obligations.FifoDeliversInOrderExactlyOnce : Prop :=
  ∀ s t : State, s.FifoLogged → s.HeldAtReset → step s = .next t → t.FifoLogged ∧ t.HeldAtReset

/-- R26: whatever the step, S's view of the occupancy never exceeds the capacity. -/
def Obligations.OccupancyNeverExceedsTheCapacity : Prop :=
  ∀ s t : State, s.occ ≤ 10 → step s = .next t → t.occ ≤ 10

/-! ## The decoder -/

/-- R157: DEC.F0 sets INIT bit 0, X to `P[7:2]` and Y to `63 - P[13:8]`, and changes nothing else but the phase. R's
view takes the same writes unless it lags, else they join those R has not seen: the view, its lag, the unseen writes and
the unchecked phase are the model's choice (log entries 7 and 12). -/
def Obligations.DecF0WritesTheAxes : Prop :=
  ∀ (s : State) (q : QWord),
    exec (.decF0 q) s = .next
      { s with
        phase := .idle
        regs := { s.regs with init := s.regs.init ||| 0b0001#4, x := BitVec.ofNat 6 (q.toNat / 2 ^ 6),
                              y := BitVec.ofNat 6 (63 - q.toNat / 2 ^ 12 % 64) }
        view := if s.lag then s.view else
          { s.view with init := s.view.init ||| 0b0001#4, x := BitVec.ofNat 6 (q.toNat / 2 ^ 6),
                        y := BitVec.ofNat 6 (63 - q.toNat / 2 ^ 12 % 64) }
        unseen := if s.lag then s.unseen ++
            [.init 0#2, .x (BitVec.ofNat 6 (q.toNat / 2 ^ 6)), .y (BitVec.ofNat 6 (63 - q.toNat / 2 ^ 12 % 64))]
          else s.unseen }

/-- R158: DEC.F1 sets INIT bit 1, LT to `P[7:2]` and RT to `P[13:8]`, and changes nothing else but the phase. The
view and the unchecked phase are the model's choice (log entries 7 and 12). -/
def Obligations.DecF1WritesTheTriggers : Prop :=
  ∀ (s : State) (q : QWord),
    exec (.decF1 q) s = .next
      { s with
        phase := .idle
        regs := { s.regs with init := s.regs.init ||| 0b0010#4, lt := BitVec.ofNat 6 (q.toNat / 2 ^ 6),
                              rt := BitVec.ofNat 6 (q.toNat / 2 ^ 12) }
        view := if s.lag then s.view else
          { s.view with init := s.view.init ||| 0b0010#4, lt := BitVec.ofNat 6 (q.toNat / 2 ^ 6),
                        rt := BitVec.ofNat 6 (q.toNat / 2 ^ 12) }
        unseen := if s.lag then s.unseen ++
            [.init 1#2, .lt (BitVec.ofNat 6 (q.toNat / 2 ^ 6)), .rt (BitVec.ofNat 6 (q.toNat / 2 ^ 12))]
          else s.unseen }

/-- R159: DEC.F2 sets INIT bit 2, THR to `P[13:8]` and the four direction registers to the differences of `P`'s bits
(`P[i]` is `Q[i+4]`), and changes nothing else but the phase. The view and the unchecked phase are the model's choice
(log entries 7 and 12). -/
def Obligations.DecF2WritesThrottleAndDirections : Prop :=
  ∀ (s : State) (q : QWord),
    exec (.decF2 q) s = .next
      { s with
        phase := .idle
        regs := { s.regs with
          init := s.regs.init ||| 0b0100#4, thr := BitVec.ofNat 6 (q.toNat / 2 ^ 12)
          hatx := BitVec.ofInt 2 ((q.getLsbD 5).toNat - (q.getLsbD 4).toNat)
          haty := BitVec.ofInt 2 ((q.getLsbD 6).toNat - (q.getLsbD 7).toNat)
          dpadx := BitVec.ofInt 2 ((q.getLsbD 9).toNat - (q.getLsbD 8).toNat)
          dpady := BitVec.ofInt 2 ((q.getLsbD 10).toNat - (q.getLsbD 11).toNat) }
        view := if s.lag then s.view else
          { s.view with
            init := s.view.init ||| 0b0100#4, thr := BitVec.ofNat 6 (q.toNat / 2 ^ 12)
            hatx := BitVec.ofInt 2 ((q.getLsbD 5).toNat - (q.getLsbD 4).toNat)
            haty := BitVec.ofInt 2 ((q.getLsbD 6).toNat - (q.getLsbD 7).toNat)
            dpadx := BitVec.ofInt 2 ((q.getLsbD 9).toNat - (q.getLsbD 8).toNat)
            dpady := BitVec.ofInt 2 ((q.getLsbD 10).toNat - (q.getLsbD 11).toNat) }
        unseen := if s.lag then s.unseen ++
            [.init 2#2, .thr (BitVec.ofNat 6 (q.toNat / 2 ^ 12)),
            .hatx (BitVec.ofInt 2 ((q.getLsbD 5).toNat - (q.getLsbD 4).toNat)),
            .haty (BitVec.ofInt 2 ((q.getLsbD 6).toNat - (q.getLsbD 7).toNat)),
            .dpadx (BitVec.ofInt 2 ((q.getLsbD 9).toNat - (q.getLsbD 8).toNat)),
            .dpady (BitVec.ofInt 2 ((q.getLsbD 10).toNat - (q.getLsbD 11).toNat))]
          else s.unseen }

/-- R160: DEC.F3 sets INIT bit 3 and BTN to `P[13:3]`, the field bits not kept, and changes nothing else but the
phase. The view and the unchecked phase are the model's choice (log entries 7 and 12). -/
def Obligations.DecF3WritesTheButtons : Prop :=
  ∀ (s : State) (q : QWord),
    exec (.decF3 q) s = .next
      { s with
        phase := .idle
        regs := { s.regs with init := s.regs.init ||| 0b1000#4, btn := BitVec.ofNat 11 (q.toNat / 2 ^ 7) }
        view := if s.lag then s.view else
          { s.view with init := s.view.init ||| 0b1000#4, btn := BitVec.ofNat 11 (q.toNat / 2 ^ 7) }
        unseen := if s.lag then s.unseen ++
            [.init 3#2, .btn (BitVec.ofNat 11 (q.toNat / 2 ^ 7))]
          else s.unseen }

/-- R154, R161, R167: DEC.REJECT and DEC.FX write no register; only their discard label is recorded and the phase is
IDLE. The unchecked phase and the history that holds the label are the model's choice (log entries 12 and 15). -/
def Obligations.RejectedAndUnknownWordsWriteNothing : Prop :=
  ∀ (s : State) (q : QWord),
    exec (.decReject q) s = .next { s with phase := .idle, history := .discCrc q :: s.history } ∧
    exec (.decFx q) s = .next { s with phase := .idle, history := .discField q :: s.history }

/-- R164: after a DEC.F2 each direction register, read as two's complement, is minuend minus subtrahend of its pair of
bits of `P`: (1, 0), (2, 3), (5, 4), (6, 7); so it is 0 when the bits are equal, +1 when only the minuend is set,
−1 when only the subtrahend is. -/
def Obligations.DirectionRegistersHoldTheDifferenceOfTheirBits : Prop :=
  ∀ (s : State) (q : QWord), ∃ t : State, exec (.decF2 q) s = .next t ∧
    ∀ (d : BitVec 2) (a b : Nat),
      ((d, a, b) = (t.regs.hatx, 1, 0) ∨ (d, a, b) = (t.regs.haty, 2, 3) ∨
        (d, a, b) = (t.regs.dpadx, 5, 4) ∨ (d, a, b) = (t.regs.dpady, 6, 7)) →
      d.toInt = ((payload q).getLsbD a).toNat - ((payload q).getLsbD b).toNat ∧
      ((payload q).getLsbD a = (payload q).getLsbD b → d = 0b00#2) ∧
      ((payload q).getLsbD a = true → (payload q).getLsbD b = false → d = 0b01#2) ∧
      ((payload q).getLsbD a = false → (payload q).getLsbD b = true → d = 0b11#2)

/-- R163: a decode, whole or a write at a time, never changes a register another field owns, nor another bit of
INIT. -/
def Obligations.DecodesNeverTouchAnotherField : Prop :=
  (∀ (s : State) (q : QWord) (f : BitVec 2), q.toNat / 2 ^ 18 = f.toNat → ∃ t : State,
    exec (decodeQW q) s = .next t ∧
    (∀ r : RegName, r ≠ .init → r.field ≠ some f → t.regs.read r = s.regs.read r) ∧
    (∀ g : BitVec 2, g ≠ f → t.regs.init.getLsbD g.toNat = s.regs.init.getLsbD g.toNat)) ∧
  (∀ (s : State) (ks : List RegWrite) (f : BitVec 2) (r : RegName),
    s.phase = .writing ks → (∀ k ∈ ks, k.ofField f) →
    (∀ r' : RegName, r' ≠ .init → r'.field ≠ some f → (writeStep r s).regs.read r' = s.regs.read r') ∧
    (∀ g : BitVec 2, g ≠ f → (writeStep r s).regs.init.getLsbD g.toNat = s.regs.init.getLsbD g.toNat)) ∧
  (∀ (q : QWord) (f : BitVec 2), q.toNat / 2 ^ 18 = f.toNat → ∀ k ∈ writesOf q, k.ofField f)

/-- R38: whatever the step, no bit of INIT is cleared unless the block is reset. -/
def Obligations.InitBitsAreNeverCleared : Prop :=
  ∀ s t : State, s.rst = false → (∀ e ∈ s.sched.head?, e.resets = false) → step s = .next t →
    s.regs.init &&& t.regs.init = s.regs.init

/-- R162: D performs a pending write of its choice, INIT first: no other write while INIT's is pending, and the phase
is IDLE once none is left. R's view of the write is the model's choice (log entry 7), and so is that a write not enabled
changes nothing (log entry 3). -/
def Obligations.DecoderWritesOneRegisterAtATimeInitFirst : Prop :=
  ∀ (s : State) (ks : List RegWrite), s.rst = false → s.phase = .writing ks → (ks.map RegWrite.reg).Nodup →
    (∀ k ∈ ks, k.reg = .init ∨ (∀ k' ∈ ks, k'.reg ≠ .init) →
      runEvent (.write k.reg) s = .next
        { s with regs := s.regs.apply k, view := if s.lag then s.view else s.view.apply k,
                 unseen := if s.lag then s.unseen ++ [k] else s.unseen,
                 phase := if ks.erase k = [] then .idle else .writing (ks.erase k) }) ∧
    (∀ r : RegName, (r ≠ .init ∧ ∃ k ∈ ks, k.reg = .init) ∨ (∀ k ∈ ks, k.reg ≠ r) →
      runEvent (.write r) s = .next s)

/-- R162: for every word, DEQ followed by its writes one at a time, INIT first and the rest in any order, ends
in the same state as the whole decode in one step. While R's view lags the two differ in one thing alone: the writes R
has not seen stand in the order in which D performed them. Both forms of a decode are log entry 8, the view log
entry 7. -/
def Obligations.EveryAdmittedWriteOrderGivesTheSameDecode : Prop :=
  ∀ (s : State) (q : QWord) (rest : List QWord) (rs : List RegName),
    s.rst = false → s.phase = .idle → s.qVis = q :: rest →
    rs.Perm ((writesOf q).map RegWrite.reg) → (rs = [] ∨ rs.head? = some .init) →
    ∃ (t t' : State) (ks : List RegWrite),
      runEvents (.deq :: rs.map .write) s = .next t ∧ runEvents [.decode] s = .next t' ∧ t.phase = .idle ∧
      t = { t' with unseen := t.unseen } ∧ (s.lag = false → t = t') ∧
      (s.lag = true → ks.Perm (writesOf q) ∧ ks.map RegWrite.reg = rs ∧
        t.unseen = s.unseen ++ ks ∧ t'.unseen = s.unseen ++ writesOf q)

/-! ## The read port -/

/-- R180, R51: RD of address 0 to 10 puts the register R sees there, zero-extended, on `rd_data` and changes nothing
else but the history's label; when R's view does not lag that is D's register. The view and the label are the model's
choice (log entries 7 and 15). -/
def Obligations.ReadReturnsTheAddressedRegister : Prop :=
  ∀ (s : State) (a : RdAddr) (d : RdWord),
    (a, d) ∈ [ (0#4, s.view.x.zeroExtend 16), (1#4, s.view.y.zeroExtend 16), (2#4, s.view.lt.zeroExtend 16),
      (3#4, s.view.rt.zeroExtend 16), (4#4, s.view.thr.zeroExtend 16), (5#4, s.view.hatx.zeroExtend 16),
      (6#4, s.view.haty.zeroExtend 16), (7#4, s.view.dpadx.zeroExtend 16), (8#4, s.view.dpady.zeroExtend 16),
      (9#4, s.view.btn.zeroExtend 16), (10#4, s.view.init.zeroExtend 16) ] →
    exec (.rd a) s = .next { s with rdData := d, history := .read a d :: s.history } ∧
    (s.ViewInSync → s.lag = false → d = s.regs.readAddr a)

/-- R52: a read of address 11 to 15 returns `0x0000` and has no other effect (the model's own history of events, log
entry 15, is left open here). -/
def Obligations.ReservedAddressesReadZero : Prop :=
  ∀ (s : State) (a : RdAddr), 11 ≤ a.toNat → ∃ t : State,
    exec (.rd a) s = .next t ∧ t = { s with rdData := 0x0000#16, history := t.history }

/-- R57 (b): whatever the step, unless it resets the block, R moves forward in each register's writes: the writes of
the register it had not seen, followed by the one D performs in this step if it does, are the writes R sees in this step
followed by those it still has not seen; and its view of the register is the old one after the writes it sees. So R
never sees an older write again and sees each in D's order. R's view stays D's register file but for the unseen writes,
after a reset too. The view, its lag and the unseen writes are the model's own (log entry 7). -/
def Obligations.ReadersNeverSeeAnOlderWriteAgain : Prop :=
  ∀ s t : State, s.ViewInSync → step s = .next t →
    t.ViewInSync ∧
    (s.rst = false → (∀ e ∈ s.sched.head?, e.resets = false) → ∀ r : RegName, ∃ new seen : List RegWrite,
      new.length ≤ 1 ∧ (∀ k ∈ new, k.reg = r) ∧ t.regs.read r = (new.foldl RegFile.apply s.regs).read r ∧
      s.unseenOf r ++ new = seen ++ t.unseenOf r ∧
      t.view.read r = (seen.foldl RegFile.apply s.view).read r)

/-- R183: with X's and Y's writes pending and R's view not lagging, a reader between the two writes sees the new X with
the old Y, as the labels of its reads in the model's history show. The view and the history are the model's own (log
entries 7 and 15). -/
def Obligations.ASnapshotMayMixDecodes : Prop :=
  ∀ (s : State) (a b : BitVec 6), s.rst = false → s.lag = false → s.phase = .writing [.x a, .y b] →
    ∃ t : State, runEvents [.write .x, .rdReq 0#4, .rdReq 1#4, .write .y, .rdReq 1#4] s = .next t ∧
      t.history = .read 1#4 (b.zeroExtend 16) :: .read 1#4 (s.view.y.zeroExtend 16)
        :: .read 0#4 (a.zeroExtend 16) :: s.history ∧ t.phase = .idle

/-- R57 (b), (c), R64: a reader whose view lags may read the X of the third of three decodes, then Y as it was before
all three, then the Y of the first, though D has performed every write. The view, its lag and the history are the
model's own (log entries 7 and 15). -/
def Obligations.AReaderMayLagAcrossDecodes : Prop :=
  ∀ (s : State) (q₁ q₂ q₃ : QWord) (rest : List QWord),
    s.rst = false → s.lag = false → s.phase = .idle → s.ViewInSync → s.qVis = q₁ :: q₂ :: q₃ :: rest →
    (∀ q ∈ [q₁, q₂, q₃], classQW q = .f0) → ∃ t : State,
      runEvents [.lagOn, .decode, .decode, .decode, .see .init, .see .init, .see .init, .see .x, .see .x, .see .x,
          .rdReq 0#4, .rdReq 1#4, .see .y, .rdReq 1#4] s = .next t ∧
        t.history = .read 1#4 ((invertAxis (payloadHigh q₁)).zeroExtend 16)
          :: .read 1#4 (s.view.y.zeroExtend 16) :: .read 0#4 ((payloadLow q₃).zeroExtend 16)
          :: .dequeued q₃ :: .dequeued q₂ :: .dequeued q₁ :: s.history ∧
        t.regs.y = invertAxis (payloadHigh q₃)

/-- R57 (b), (c), R162: while R's view lags, no decode, whole or a write at a time, changes it, its writes joining the
unseen ones; showing a register shows its oldest unseen write and no other, provided no INIT write is unseen before it;
else, or with no unseen write of the register, it changes nothing; and so no register of a field is shown while the
field's INIT bit is clear in the view. The lag, the unseen writes and their events are the model's own (log entries 3
and 7). -/
def Obligations.ALaggingWriteIsSeenOnlyAfterInit : Prop :=
  ∀ s : State, s.rst = false → s.lag = true →
    (∀ q : QWord, ∃ t : State, exec (decodeQW q) s = .next t ∧ t.view = s.view ∧ t.unseen = s.unseen ++ writesOf q) ∧
    (∀ r : RegName, ∃ t : State, runEvent (.write r) s = .next t ∧ t.view = s.view ∧
      (t = s ∨ ∃ k : RegWrite, k.reg = r ∧ t.unseen = s.unseen ++ [k])) ∧
    (∀ (a b : List RegWrite) (k : RegWrite), s.unseen = a ++ k :: b →
      (∀ k' ∈ a, k'.reg ≠ k.reg ∧ k'.reg ≠ .init) →
      runEvent (.see k.reg) s = .next { s with view := s.view.apply k, unseen := a ++ b }) ∧
    (∀ (a b : List RegWrite) (i : RegWrite) (r : RegName), s.unseen = a ++ i :: b → i.reg = .init →
      (∀ k ∈ a, k.reg ≠ r) → r ≠ .init → runEvent (.see r) s = .next s) ∧
    (∀ r : RegName, (∀ k ∈ s.unseen, k.reg ≠ r) → runEvent (.see r) s = .next s) ∧
    (UnseenOk s.view s.unseen → ∀ r : RegName, s.view.meaningful r = false → runEvent (.see r) s = .next s)

/-! ## Reset -/

/-- R230: RST puts every piece of the block's state at its reset value; the input levels, the events to come and the
history (but for its label) stay, being no state of the block. Raising the level of `rst` does the same and leaves it
asserted. What stays, R's view and `rst` as a pulse and as a level are the model's choice (log entries 5, 6, 7, 15). -/
def Obligations.ResetTakesTheTablesValues : Prop :=
  ∀ s : State, ∃ t : State,
    t =
      { v := 0b00#2, w := 0b00#2, acc := 0#20, cnt := 0#5, qVis := [], qPend := [], nFreePend := 0, phase := .idle,
        regs := { x := 0#6, y := 0#6, lt := 0#6, rt := 0#6, thr := 0#6, hatx := 0#2, haty := 0#2, dpadx := 0#2,
                  dpady := 0#2, btn := 0#11, init := 0b0000#4 }
        view := { x := 0#6, y := 0#6, lt := 0#6, rt := 0#6, thr := 0#6, hatx := 0#2, haty := 0#2, dpadx := 0#2,
                  dpady := 0#2, btn := 0#11, init := 0b0000#4 }
        unseen := [], lag := false, rdData := 0x0000#16, lines := s.lines, rst := s.rst, sched := s.sched,
        history := .reset :: s.history } ∧
    exec .rst s = .next t ∧
    (s.rst = false → runEvent .rst s = .next t ∧ runEvent (.rstLevel true) s = .next { t with rst := true })

/-- R139: reset empties the FIFO, and every word not yet dequeued is lost: none is left to dequeue. -/
def Obligations.ResetEmptiesTheFifo : Prop :=
  ∀ s : State, ∃ t : State, exec .rst s = .next t ∧
    t.qVis = [] ∧ t.qPend = [] ∧ t.nFreePend = 0 ∧ t.contents = []

/-- R205, R230: while `rst` is asserted no agent steps: whatever the event, a strobe, a request or an agent's step, it
is lost, leaving no label, and the result is the reset state. `rst` stays asserted until it is lowered; lowering it
leaves the reset state, from which the agents start, with the lines at the levels E drives. That `rst` and the lines
change by events of their own is the model's choice (log entry 6). -/
def Obligations.WhileResetIsAssertedEveryEventIsLost : Prop :=
  ∀ (s : State) (e : Event), s.rst = true → ∃ t : State, runEvent e s = .next t ∧
    t = { State.reset with lines := t.lines, rst := t.rst, sched := s.sched, history := s.history } ∧
    t.lines = e.linesAfter s.lines ∧ t.rst = e.rstAfter ∧
    (t.rst = false ↔ e = .rstLevel false)

/-! ## The machine -/

/-- R6, R100, R132, R180: a step takes the next event and runs the operation it selects: a strobe the one the history
word selects, a decode the one the head of `q_vis` selects after that word has left the FIFO, a read request the RD of
its address, the others their own. The events are the model's own data (log entry 1). -/
def Obligations.StepRunsTheSelectedOperation : Prop :=
  ∀ (s : State) (es : List Event), s.rst = false →
    (∀ src : Level, s.sched = .strobe src :: es →
      step s = exec (decodeHist (s.w ++ s.v ++ s.lines)) { s with sched := es }) ∧
    (∀ (q : QWord) (rest : List QWord), s.sched = .decode :: es → s.phase = .idle → s.qVis = q :: rest →
      step s = exec (decodeQW q)
        { s with sched := es, qVis := rest, nFreePend := s.nFreePend + 1, history := .dequeued q :: s.history }) ∧
    (∀ a : RdAddr, s.sched = .rdReq a :: es → step s = exec (.rd a) { s with sched := es }) ∧
    (s.sched = .deq :: es → step s = exec .deq { s with sched := es }) ∧
    (s.sched = .publish :: es → step s = exec .publish { s with sched := es }) ∧
    (s.sched = .release :: es → step s = exec .release { s with sched := es }) ∧
    (s.sched = .rst :: es → step s = exec .rst { s with sched := es }) ∧
    (∀ u : Sample, s.sched = .drive u :: es → step s = .next { s with sched := es, lines := u })

/-- When the bytes an agent takes its operation from decode to an instruction, the step runs exactly it: the history
word's byte at a strobe, the head queue word's four bytes at a decode, the address's byte at a read request. The byte
layout and the events are the model's choice (log entries 13 and 1). -/
def Obligations.StepRunsTheDecodedInstruction : Prop :=
  ∀ (s : State) (es : List Event) (i : Instr), s.rst = false →
    (∀ src : Level, s.sched = .strobe src :: es →
      decode .hist [0#2 ++ s.w ++ s.v ++ s.lines] = .instr i → step s = exec i { s with sched := es }) ∧
    (∀ (b0 b1 b2 b3 : Byte) (rest : List QWord), s.sched = .decode :: es → s.phase = .idle →
      s.qVis = (b3 ++ b2 ++ b1 ++ b0) :: rest → decode .qw [b0, b1, b2, b3] = .instr i →
      step s = exec i { s with sched := es, qVis := rest, nFreePend := s.nFreePend + 1,
                               history := .dequeued (b3 ++ b2 ++ b1 ++ b0) :: s.history }) ∧
    (∀ a : RdAddr, s.sched = .rdReq a :: es → decode .rda [0#4 ++ a] = .instr i →
      step s = exec i { s with sched := es })

/-- R200: no operation raises an exception, traps or halts: every operation and every step answers a next state. -/
def Obligations.EveryOperationAndEveryStepCompletes : Prop :=
  (∀ (i : Instr) (s : State), ∃ t : State, exec i s = .next t) ∧ (∀ s : State, ∃ t : State, step s = .next t)

/-- R43, R56, R210: an event changes only what its agent may write: the lines by E; `v`, `w`, `acc`, `cnt` and the FIFO
tail by S; the FIFO's views by Y; the FIFO head, the phase and the register file (and so R's view of it) by D;
`rd_data` by R. The model's history may change too; the view, the history and the events are the model's own (log
entries 1, 7, 15). -/
def Obligations.EachAgentWritesOnlyItsOwnState : Prop :=
  ∀ (s t : State) (e : Event), s.rst = false → runEvent e s = .next t →
    e.OwnStateOnly s t

/-- The invariant holds right after reset. The view and the history it speaks of are the model's own (log entries 7 and
15). -/
def Obligations.ResetStateMeetsTheInvariant : Prop := State.reset.Inv

/-- The invariant is kept by every step, whatever the schedule: occupancy (R26), queue words (R73), accumulator (R23),
pending writes (R27, R162), direction patterns (R33 to R36), unset fields (R39), R's view and the writes it has not
seen (R57), reset held (R230), FIFO order (R134, R135), `rd_data` (R180). The view and the history it speaks of are the
model's own (log entries 7 and 15). -/
def Obligations.EveryStepKeepsTheInvariant : Prop :=
  ∀ s t : State, s.Inv → step s = .next t → t.Inv

/-- R133, R212: with no event to come and `rst` not asserted, the block's own agents bring it to rest within 100
steps: every word accepted has been dequeued, every slot is free again, no write is pending. The order of the steps
when none is scheduled, and so the number 100, is the model's choice (log entry 2). -/
def Obligations.TheBlockDrainsWhenNothingIsScheduled : Prop :=
  ∀ s : State, s.Inv → s.rst = false → s.sched = [] → ∃ (k : Nat) (t : State),
    k ≤ 100 ∧ Host.Core.run Sys2Proof.core k s = .next t ∧ t.Quiescent ∧
    dequeuedWords t.history = acceptedWords t.history
end

