-- ==== Sys2Proof/Laws/State.lean ====
section
/-! SUPPORT. One lemma per field for each state update of Machine/Ops.lean that always updates the same fields, so that
no later proof unfolds a record update. -/

namespace Sys2Proof.Machine

/-! ## `observe` -/

@[simp] theorem observe_v (o : Obs) (s : State) : (observe o s).v = s.v := rfl
@[simp] theorem observe_w (o : Obs) (s : State) : (observe o s).w = s.w := rfl
@[simp] theorem observe_acc (o : Obs) (s : State) : (observe o s).acc = s.acc := rfl
@[simp] theorem observe_cnt (o : Obs) (s : State) : (observe o s).cnt = s.cnt := rfl
@[simp] theorem observe_qVis (o : Obs) (s : State) : (observe o s).qVis = s.qVis := rfl
@[simp] theorem observe_qPend (o : Obs) (s : State) : (observe o s).qPend = s.qPend := rfl
@[simp] theorem observe_nFreePend (o : Obs) (s : State) : (observe o s).nFreePend = s.nFreePend := rfl
@[simp] theorem observe_phase (o : Obs) (s : State) : (observe o s).phase = s.phase := rfl
@[simp] theorem observe_regs (o : Obs) (s : State) : (observe o s).regs = s.regs := rfl
@[simp] theorem observe_view (o : Obs) (s : State) : (observe o s).view = s.view := rfl
@[simp] theorem observe_unseen (o : Obs) (s : State) : (observe o s).unseen = s.unseen := rfl
@[simp] theorem observe_lag (o : Obs) (s : State) : (observe o s).lag = s.lag := rfl
@[simp] theorem observe_rdData (o : Obs) (s : State) : (observe o s).rdData = s.rdData := rfl
@[simp] theorem observe_lines (o : Obs) (s : State) : (observe o s).lines = s.lines := rfl
@[simp] theorem observe_rst (o : Obs) (s : State) : (observe o s).rst = s.rst := rfl
@[simp] theorem observe_sched (o : Obs) (s : State) : (observe o s).sched = s.sched := rfl
@[simp] theorem observe_history (o : Obs) (s : State) : (observe o s).history = o :: s.history := rfl

/-! ## `shiftHistory` -/

@[simp] theorem shiftHistory_v (u : Sample) (s : State) : (shiftHistory u s).v = u := rfl
@[simp] theorem shiftHistory_w (u : Sample) (s : State) : (shiftHistory u s).w = s.v := rfl
@[simp] theorem shiftHistory_acc (u : Sample) (s : State) : (shiftHistory u s).acc = s.acc := rfl
@[simp] theorem shiftHistory_cnt (u : Sample) (s : State) : (shiftHistory u s).cnt = s.cnt := rfl
@[simp] theorem shiftHistory_qVis (u : Sample) (s : State) : (shiftHistory u s).qVis = s.qVis := rfl
@[simp] theorem shiftHistory_qPend (u : Sample) (s : State) : (shiftHistory u s).qPend = s.qPend := rfl
@[simp] theorem shiftHistory_nFreePend (u : Sample) (s : State) : (shiftHistory u s).nFreePend = s.nFreePend := rfl
@[simp] theorem shiftHistory_phase (u : Sample) (s : State) : (shiftHistory u s).phase = s.phase := rfl
@[simp] theorem shiftHistory_regs (u : Sample) (s : State) : (shiftHistory u s).regs = s.regs := rfl
@[simp] theorem shiftHistory_view (u : Sample) (s : State) : (shiftHistory u s).view = s.view := rfl
@[simp] theorem shiftHistory_unseen (u : Sample) (s : State) : (shiftHistory u s).unseen = s.unseen := rfl
@[simp] theorem shiftHistory_lag (u : Sample) (s : State) : (shiftHistory u s).lag = s.lag := rfl
@[simp] theorem shiftHistory_rdData (u : Sample) (s : State) : (shiftHistory u s).rdData = s.rdData := rfl
@[simp] theorem shiftHistory_lines (u : Sample) (s : State) : (shiftHistory u s).lines = s.lines := rfl
@[simp] theorem shiftHistory_rst (u : Sample) (s : State) : (shiftHistory u s).rst = s.rst := rfl
@[simp] theorem shiftHistory_sched (u : Sample) (s : State) : (shiftHistory u s).sched = s.sched := rfl
@[simp] theorem shiftHistory_history (u : Sample) (s : State) : (shiftHistory u s).history = s.history := rfl

/-! ## `foldBit` -/

@[simp] theorem foldBit_v (d : Level) (s : State) : (foldBit d s).v = s.v := rfl
@[simp] theorem foldBit_w (d : Level) (s : State) : (foldBit d s).w = s.w := rfl
@[simp] theorem foldBit_acc (d : Level) (s : State) : (foldBit d s).acc = (s.acc <<< 1) ||| d.zeroExtend 20 := rfl
@[simp] theorem foldBit_cnt (d : Level) (s : State) : (foldBit d s).cnt = cntIncr s.cnt := rfl
@[simp] theorem foldBit_qVis (d : Level) (s : State) : (foldBit d s).qVis = s.qVis := rfl
@[simp] theorem foldBit_qPend (d : Level) (s : State) : (foldBit d s).qPend = s.qPend := rfl
@[simp] theorem foldBit_nFreePend (d : Level) (s : State) : (foldBit d s).nFreePend = s.nFreePend := rfl
@[simp] theorem foldBit_phase (d : Level) (s : State) : (foldBit d s).phase = s.phase := rfl
@[simp] theorem foldBit_regs (d : Level) (s : State) : (foldBit d s).regs = s.regs := rfl
@[simp] theorem foldBit_view (d : Level) (s : State) : (foldBit d s).view = s.view := rfl
@[simp] theorem foldBit_unseen (d : Level) (s : State) : (foldBit d s).unseen = s.unseen := rfl
@[simp] theorem foldBit_lag (d : Level) (s : State) : (foldBit d s).lag = s.lag := rfl
@[simp] theorem foldBit_rdData (d : Level) (s : State) : (foldBit d s).rdData = s.rdData := rfl
@[simp] theorem foldBit_lines (d : Level) (s : State) : (foldBit d s).lines = s.lines := rfl
@[simp] theorem foldBit_rst (d : Level) (s : State) : (foldBit d s).rst = s.rst := rfl
@[simp] theorem foldBit_sched (d : Level) (s : State) : (foldBit d s).sched = s.sched := rfl
@[simp] theorem foldBit_history (d : Level) (s : State) : (foldBit d s).history = s.history := rfl

/-! ## `clearAcc` -/

@[simp] theorem clearAcc_v (s : State) : (clearAcc s).v = s.v := rfl
@[simp] theorem clearAcc_w (s : State) : (clearAcc s).w = s.w := rfl
@[simp] theorem clearAcc_acc (s : State) : (clearAcc s).acc = 0#20 := rfl
@[simp] theorem clearAcc_cnt (s : State) : (clearAcc s).cnt = 0#5 := rfl
@[simp] theorem clearAcc_qVis (s : State) : (clearAcc s).qVis = s.qVis := rfl
@[simp] theorem clearAcc_qPend (s : State) : (clearAcc s).qPend = s.qPend := rfl
@[simp] theorem clearAcc_nFreePend (s : State) : (clearAcc s).nFreePend = s.nFreePend := rfl
@[simp] theorem clearAcc_phase (s : State) : (clearAcc s).phase = s.phase := rfl
@[simp] theorem clearAcc_regs (s : State) : (clearAcc s).regs = s.regs := rfl
@[simp] theorem clearAcc_view (s : State) : (clearAcc s).view = s.view := rfl
@[simp] theorem clearAcc_unseen (s : State) : (clearAcc s).unseen = s.unseen := rfl
@[simp] theorem clearAcc_lag (s : State) : (clearAcc s).lag = s.lag := rfl
@[simp] theorem clearAcc_rdData (s : State) : (clearAcc s).rdData = s.rdData := rfl
@[simp] theorem clearAcc_lines (s : State) : (clearAcc s).lines = s.lines := rfl
@[simp] theorem clearAcc_rst (s : State) : (clearAcc s).rst = s.rst := rfl
@[simp] theorem clearAcc_sched (s : State) : (clearAcc s).sched = s.sched := rfl
@[simp] theorem clearAcc_history (s : State) : (clearAcc s).history = s.history := rfl

/-! ## `takeHead` -/

@[simp] theorem takeHead_v (q : QWord) (s : State) : (takeHead q s).v = s.v := rfl
@[simp] theorem takeHead_w (q : QWord) (s : State) : (takeHead q s).w = s.w := rfl
@[simp] theorem takeHead_acc (q : QWord) (s : State) : (takeHead q s).acc = s.acc := rfl
@[simp] theorem takeHead_cnt (q : QWord) (s : State) : (takeHead q s).cnt = s.cnt := rfl
@[simp] theorem takeHead_qVis (q : QWord) (s : State) : (takeHead q s).qVis = s.qVis.tail := rfl
@[simp] theorem takeHead_qPend (q : QWord) (s : State) : (takeHead q s).qPend = s.qPend := rfl
@[simp] theorem takeHead_nFreePend (q : QWord) (s : State) : (takeHead q s).nFreePend = s.nFreePend + 1 := rfl
@[simp] theorem takeHead_phase (q : QWord) (s : State) : (takeHead q s).phase = s.phase := rfl
@[simp] theorem takeHead_regs (q : QWord) (s : State) : (takeHead q s).regs = s.regs := rfl
@[simp] theorem takeHead_view (q : QWord) (s : State) : (takeHead q s).view = s.view := rfl
@[simp] theorem takeHead_unseen (q : QWord) (s : State) : (takeHead q s).unseen = s.unseen := rfl
@[simp] theorem takeHead_lag (q : QWord) (s : State) : (takeHead q s).lag = s.lag := rfl
@[simp] theorem takeHead_rdData (q : QWord) (s : State) : (takeHead q s).rdData = s.rdData := rfl
@[simp] theorem takeHead_lines (q : QWord) (s : State) : (takeHead q s).lines = s.lines := rfl
@[simp] theorem takeHead_rst (q : QWord) (s : State) : (takeHead q s).rst = s.rst := rfl
@[simp] theorem takeHead_sched (q : QWord) (s : State) : (takeHead q s).sched = s.sched := rfl
@[simp] theorem takeHead_history (q : QWord) (s : State) : (takeHead q s).history = .dequeued q :: s.history := rfl

/-! ## `fifoRelease` -/

@[simp] theorem fifoRelease_v (s : State) : (fifoRelease s).v = s.v := rfl
@[simp] theorem fifoRelease_w (s : State) : (fifoRelease s).w = s.w := rfl
@[simp] theorem fifoRelease_acc (s : State) : (fifoRelease s).acc = s.acc := rfl
@[simp] theorem fifoRelease_cnt (s : State) : (fifoRelease s).cnt = s.cnt := rfl
@[simp] theorem fifoRelease_qVis (s : State) : (fifoRelease s).qVis = s.qVis := rfl
@[simp] theorem fifoRelease_qPend (s : State) : (fifoRelease s).qPend = s.qPend := rfl
@[simp] theorem fifoRelease_nFreePend (s : State) : (fifoRelease s).nFreePend = s.nFreePend - 1 := rfl
@[simp] theorem fifoRelease_phase (s : State) : (fifoRelease s).phase = s.phase := rfl
@[simp] theorem fifoRelease_regs (s : State) : (fifoRelease s).regs = s.regs := rfl
@[simp] theorem fifoRelease_view (s : State) : (fifoRelease s).view = s.view := rfl
@[simp] theorem fifoRelease_unseen (s : State) : (fifoRelease s).unseen = s.unseen := rfl
@[simp] theorem fifoRelease_lag (s : State) : (fifoRelease s).lag = s.lag := rfl
@[simp] theorem fifoRelease_rdData (s : State) : (fifoRelease s).rdData = s.rdData := rfl
@[simp] theorem fifoRelease_lines (s : State) : (fifoRelease s).lines = s.lines := rfl
@[simp] theorem fifoRelease_rst (s : State) : (fifoRelease s).rst = s.rst := rfl
@[simp] theorem fifoRelease_sched (s : State) : (fifoRelease s).sched = s.sched := rfl
@[simp] theorem fifoRelease_history (s : State) : (fifoRelease s).history = s.history := rfl

/-! ## `storeReg` -/

@[simp] theorem storeReg_v (k : RegWrite) (s : State) : (storeReg k s).v = s.v := rfl
@[simp] theorem storeReg_w (k : RegWrite) (s : State) : (storeReg k s).w = s.w := rfl
@[simp] theorem storeReg_acc (k : RegWrite) (s : State) : (storeReg k s).acc = s.acc := rfl
@[simp] theorem storeReg_cnt (k : RegWrite) (s : State) : (storeReg k s).cnt = s.cnt := rfl
@[simp] theorem storeReg_qVis (k : RegWrite) (s : State) : (storeReg k s).qVis = s.qVis := rfl
@[simp] theorem storeReg_qPend (k : RegWrite) (s : State) : (storeReg k s).qPend = s.qPend := rfl
@[simp] theorem storeReg_nFreePend (k : RegWrite) (s : State) : (storeReg k s).nFreePend = s.nFreePend := rfl
@[simp] theorem storeReg_phase (k : RegWrite) (s : State) : (storeReg k s).phase = s.phase := rfl
@[simp] theorem storeReg_regs (k : RegWrite) (s : State) : (storeReg k s).regs = s.regs.apply k := rfl
@[simp] theorem storeReg_view (k : RegWrite) (s : State) : (storeReg k s).view = if s.lag then s.view else s.view.apply k := rfl
@[simp] theorem storeReg_unseen (k : RegWrite) (s : State) : (storeReg k s).unseen = if s.lag then s.unseen ++ [k] else s.unseen := rfl
@[simp] theorem storeReg_lag (k : RegWrite) (s : State) : (storeReg k s).lag = s.lag := rfl
@[simp] theorem storeReg_rdData (k : RegWrite) (s : State) : (storeReg k s).rdData = s.rdData := rfl
@[simp] theorem storeReg_lines (k : RegWrite) (s : State) : (storeReg k s).lines = s.lines := rfl
@[simp] theorem storeReg_rst (k : RegWrite) (s : State) : (storeReg k s).rst = s.rst := rfl
@[simp] theorem storeReg_sched (k : RegWrite) (s : State) : (storeReg k s).sched = s.sched := rfl
@[simp] theorem storeReg_history (k : RegWrite) (s : State) : (storeReg k s).history = s.history := rfl

/-! ## `seeAll` -/

@[simp] theorem seeAll_v (s : State) : (seeAll s).v = s.v := rfl
@[simp] theorem seeAll_w (s : State) : (seeAll s).w = s.w := rfl
@[simp] theorem seeAll_acc (s : State) : (seeAll s).acc = s.acc := rfl
@[simp] theorem seeAll_cnt (s : State) : (seeAll s).cnt = s.cnt := rfl
@[simp] theorem seeAll_qVis (s : State) : (seeAll s).qVis = s.qVis := rfl
@[simp] theorem seeAll_qPend (s : State) : (seeAll s).qPend = s.qPend := rfl
@[simp] theorem seeAll_nFreePend (s : State) : (seeAll s).nFreePend = s.nFreePend := rfl
@[simp] theorem seeAll_phase (s : State) : (seeAll s).phase = s.phase := rfl
@[simp] theorem seeAll_regs (s : State) : (seeAll s).regs = s.regs := rfl
@[simp] theorem seeAll_view (s : State) : (seeAll s).view = s.unseen.foldl RegFile.apply s.view := rfl
@[simp] theorem seeAll_unseen (s : State) : (seeAll s).unseen = [] := rfl
@[simp] theorem seeAll_lag (s : State) : (seeAll s).lag = false := rfl
@[simp] theorem seeAll_rdData (s : State) : (seeAll s).rdData = s.rdData := rfl
@[simp] theorem seeAll_lines (s : State) : (seeAll s).lines = s.lines := rfl
@[simp] theorem seeAll_rst (s : State) : (seeAll s).rst = s.rst := rfl
@[simp] theorem seeAll_sched (s : State) : (seeAll s).sched = s.sched := rfl
@[simp] theorem seeAll_history (s : State) : (seeAll s).history = s.history := rfl

/-! ## `readPort` -/

@[simp] theorem readPort_v (a : RdAddr) (s : State) : (readPort a s).v = s.v := rfl
@[simp] theorem readPort_w (a : RdAddr) (s : State) : (readPort a s).w = s.w := rfl
@[simp] theorem readPort_acc (a : RdAddr) (s : State) : (readPort a s).acc = s.acc := rfl
@[simp] theorem readPort_cnt (a : RdAddr) (s : State) : (readPort a s).cnt = s.cnt := rfl
@[simp] theorem readPort_qVis (a : RdAddr) (s : State) : (readPort a s).qVis = s.qVis := rfl
@[simp] theorem readPort_qPend (a : RdAddr) (s : State) : (readPort a s).qPend = s.qPend := rfl
@[simp] theorem readPort_nFreePend (a : RdAddr) (s : State) : (readPort a s).nFreePend = s.nFreePend := rfl
@[simp] theorem readPort_phase (a : RdAddr) (s : State) : (readPort a s).phase = s.phase := rfl
@[simp] theorem readPort_regs (a : RdAddr) (s : State) : (readPort a s).regs = s.regs := rfl
@[simp] theorem readPort_view (a : RdAddr) (s : State) : (readPort a s).view = s.view := rfl
@[simp] theorem readPort_unseen (a : RdAddr) (s : State) : (readPort a s).unseen = s.unseen := rfl
@[simp] theorem readPort_lag (a : RdAddr) (s : State) : (readPort a s).lag = s.lag := rfl
@[simp] theorem readPort_rdData (a : RdAddr) (s : State) : (readPort a s).rdData = s.view.readAddr a := rfl
@[simp] theorem readPort_lines (a : RdAddr) (s : State) : (readPort a s).lines = s.lines := rfl
@[simp] theorem readPort_rst (a : RdAddr) (s : State) : (readPort a s).rst = s.rst := rfl
@[simp] theorem readPort_sched (a : RdAddr) (s : State) : (readPort a s).sched = s.sched := rfl
@[simp] theorem readPort_history (a : RdAddr) (s : State) : (readPort a s).history = .read a (s.view.readAddr a) :: s.history := rfl

/-! ## `resetBlock` -/

@[simp] theorem resetBlock_v (s : State) : (resetBlock s).v = 0#2 := rfl
@[simp] theorem resetBlock_w (s : State) : (resetBlock s).w = 0#2 := rfl
@[simp] theorem resetBlock_acc (s : State) : (resetBlock s).acc = 0#20 := rfl
@[simp] theorem resetBlock_cnt (s : State) : (resetBlock s).cnt = 0#5 := rfl
@[simp] theorem resetBlock_qVis (s : State) : (resetBlock s).qVis = [] := rfl
@[simp] theorem resetBlock_qPend (s : State) : (resetBlock s).qPend = [] := rfl
@[simp] theorem resetBlock_nFreePend (s : State) : (resetBlock s).nFreePend = 0 := rfl
@[simp] theorem resetBlock_phase (s : State) : (resetBlock s).phase = .idle := rfl
@[simp] theorem resetBlock_regs (s : State) : (resetBlock s).regs = RegFile.reset := rfl
@[simp] theorem resetBlock_view (s : State) : (resetBlock s).view = RegFile.reset := rfl
@[simp] theorem resetBlock_unseen (s : State) : (resetBlock s).unseen = [] := rfl
@[simp] theorem resetBlock_lag (s : State) : (resetBlock s).lag = false := rfl
@[simp] theorem resetBlock_rdData (s : State) : (resetBlock s).rdData = 0#16 := rfl
@[simp] theorem resetBlock_lines (s : State) : (resetBlock s).lines = s.lines := rfl
@[simp] theorem resetBlock_rst (s : State) : (resetBlock s).rst = s.rst := rfl
@[simp] theorem resetBlock_sched (s : State) : (resetBlock s).sched = s.sched := rfl
@[simp] theorem resetBlock_history (s : State) : (resetBlock s).history = s.history := rfl

end Sys2Proof.Machine
end

