-- ==== Sys2Proof/Laws/Ops.lean ====
section
/-! SUPPORT. What each shared operation can do, said once: the lemmas a proof cites instead of unfolding the
operation. -/

namespace Sys2Proof.Machine

/-! ## The FIFO -/

theorem fifoEnq_eq (q : QWord) (s : State) :
    (s.occ < 10 ∧ fifoEnq q s = (.ok, { s with qPend := s.qPend ++ [q], history := .enqueued q :: s.history })) ∨
    (10 ≤ s.occ ∧ fifoEnq q s = (.full, s)) := by
  by_cases h : s.occ ≥ 10
  · exact .inr ⟨h, by simp [fifoEnq, Config.qDepth, h]⟩
  · exact .inl ⟨by omega, by simp [fifoEnq, Config.qDepth, h, observe]⟩

theorem enqueue_eq (q : QWord) (s : State) :
    (s.occ < 10 ∧ enqueue q s = { s with qPend := s.qPend ++ [q], history := .enqueued q :: s.history }) ∨
    (10 ≤ s.occ ∧ enqueue q s = { s with history := .discFull (q.truncate 20) :: s.history }) := by
  rcases fifoEnq_eq q s with ⟨h, e⟩ | ⟨h, e⟩
  · exact .inl ⟨h, by simp [enqueue, e]⟩
  · exact .inr ⟨h, by simp [enqueue, e, observe]⟩

theorem fifoPublish_cons {s : State} {q : QWord} {rest : List QWord} (h : s.qPend = q :: rest) :
    fifoPublish s = { s with qVis := s.qVis ++ [q], qPend := rest } := by simp [fifoPublish, h]

theorem fifoPublish_nil {s : State} (h : s.qPend = []) : fifoPublish s = s := by simp [fifoPublish, h]

@[simp] theorem contents_fifoPublish (s : State) : (fifoPublish s).contents = s.contents := by
  unfold fifoPublish State.contents; split <;> simp_all

@[simp] theorem occ_fifoPublish (s : State) : (fifoPublish s).occ = s.occ := by
  unfold fifoPublish State.occ; split
  · simp_all; omega
  · rfl

/-! ## The decode of a word -/

/-- What D does with a dequeued word, by its class. -/
theorem beginDecode_eq (q : QWord) (s : State) :
    (classQW q = .reject ∧ writesOf q = [] ∧ beginDecode q s = observe (.discCrc q) { s with phase := .idle }) ∨
    (classQW q = .fx ∧ writesOf q = [] ∧ beginDecode q s = observe (.discField q) { s with phase := .idle }) ∨
    (classQW q = .f0 ∧ writesOf q = writesF0 q ∧ beginDecode q s = { s with phase := .writing (writesOf q) }) ∨
    (classQW q = .f1 ∧ writesOf q = writesF1 q ∧ beginDecode q s = { s with phase := .writing (writesOf q) }) ∨
    (classQW q = .f2 ∧ writesOf q = writesF2 q ∧ beginDecode q s = { s with phase := .writing (writesOf q) }) ∨
    (classQW q = .f3 ∧ writesOf q = writesF3 q ∧ beginDecode q s = { s with phase := .writing (writesOf q) }) := by
  cases h : classQW q <;> simp [beginDecode, writesOf, h]

/-- The one-step decode of a word, by its class. -/
theorem exec_decodeQW (q : QWord) (s : State) :
    (classQW q = .reject ∧ writesOf q = [] ∧
      exec (decodeQW q) s = .next (observe (.discCrc q) { s with phase := .idle })) ∨
    (classQW q = .fx ∧ writesOf q = [] ∧
      exec (decodeQW q) s = .next (observe (.discField q) { s with phase := .idle })) ∨
    (classQW q ≠ .reject ∧ classQW q ≠ .fx ∧ exec (decodeQW q) s = .next (finishDecode (writesOf q) s)) := by
  cases h : classQW q <;>
    simp [decodeQW, writesOf, h, exec, execDecReject, execDecF0, execDecF1, execDecF2, execDecF3, execDecFx]

theorem dequeueStep_cons {s : State} {q : QWord} {rest : List QWord} (hp : s.phase = .idle)
    (hq : s.qVis = q :: rest) : dequeueStep s = beginDecode q (takeHead q s) := by
  simp [dequeueStep, hp, hq]

theorem dequeueStep_wait {s : State} (h : s.qVis = [] ∨ s.phase ≠ .idle) : dequeueStep s = s := by
  unfold dequeueStep; split <;> simp_all

/-! ## Register writes -/

@[simp] theorem storeAll_nil (s : State) : storeAll [] s = s := rfl

@[simp] theorem storeAll_cons (k : RegWrite) (ks : List RegWrite) (s : State) :
    storeAll (k :: ks) s = storeAll ks (storeReg k s) := rfl

theorem storeAll_append (as bs : List RegWrite) (s : State) :
    storeAll (as ++ bs) s = storeAll bs (storeAll as s) := by simp [storeAll]

/-- Several writes change only the register file and R's view of it, or the writes R has not seen. -/
theorem storeAll_eq (ks : List RegWrite) (s : State) :
    storeAll ks s = { s with regs := ks.foldl RegFile.apply s.regs,
                             view := if s.lag then s.view else ks.foldl RegFile.apply s.view,
                             unseen := if s.lag then s.unseen ++ ks else s.unseen } := by
  induction ks generalizing s with
  | nil => simp
  | cons k ks ih => rw [storeAll_cons, ih]; cases hl : s.lag <;> simp [storeReg, hl]

theorem finishDecode_eq (ks : List RegWrite) (s : State) :
    finishDecode ks s = { s with phase := .idle, regs := ks.foldl RegFile.apply s.regs,
                                 view := if s.lag then s.view else ks.foldl RegFile.apply s.view,
                                 unseen := if s.lag then s.unseen ++ ks else s.unseen } := by
  simp [finishDecode, storeAll_eq]

/-- Writes of two different registers commute. -/
theorem apply_comm {a b : RegWrite} (h : a.reg ≠ b.reg) (f : RegFile) :
    (f.apply a).apply b = (f.apply b).apply a := by
  cases a <;> cases b <;> simp [RegWrite.reg] at h <;> rfl

/-- A write leaves every other register alone. -/
theorem read_apply_ne {k : RegWrite} {r : RegName} (h : k.reg ≠ r) (f : RegFile) :
    (f.apply k).read r = f.read r := by
  cases k <;> cases r <;> simp [RegWrite.reg] at h <;> rfl

/-- A write that is no INIT write leaves INIT alone. -/
theorem init_apply_ne {k : RegWrite} (h : k.reg ≠ .init) (f : RegFile) : (f.apply k).init = f.init := by
  cases k <;> simp [RegWrite.reg] at h <;> rfl

/-- A pending write is picked only if it is INIT's or INIT's is not pending (R162). -/
theorem pickWrite_some {r : RegName} {ks : List RegWrite} {k : RegWrite} {rest : List RegWrite}
    (h : pickWrite r ks = some (k, rest)) :
    k ∈ ks ∧ k.reg = r ∧ rest = ks.erase k ∧ (r = .init ∨ ∀ k' ∈ ks, k'.reg ≠ .init) := by
  unfold pickWrite at h
  split at h
  · cases h
  · rename_i hc
    split at h
    · rename_i k' hf
      cases h
      refine ⟨List.mem_of_find?_eq_some hf, by simpa using List.find?_some hf, rfl, ?_⟩
      by_cases hr : r = .init
      · exact .inl hr
      · exact .inr (fun k' hk' => by simpa using fun e => hc (by simp [hr]; exact ⟨k', hk', e⟩))
    · cases h

/-- Where pending writes are of different registers, an allowed write is the one picked. -/
theorem pickWrite_of_mem {ks : List RegWrite} {k : RegWrite} (hk : k ∈ ks) (hn : (ks.map RegWrite.reg).Nodup)
    (ha : k.reg = .init ∨ ∀ k' ∈ ks, k'.reg ≠ .init) : pickWrite k.reg ks = some (k, ks.erase k) := by
  have hc : ¬ ((k.reg != .init && ks.any (fun k' => k'.reg == .init)) = true) := by
    rcases ha with h | h
    · simp [h]
    · simp only [Bool.and_eq_true, List.any_eq_true, not_and]
      rintro - ⟨k', hk', e⟩
      exact h k' hk' (by simpa using e)
  have hf : ks.find? (fun k' => k'.reg == k.reg) = some k := by
    clear hc ha
    induction ks with
    | nil => cases hk
    | cons a as ih =>
      rw [List.map_cons, List.nodup_cons] at hn
      rcases List.mem_cons.1 hk with rfl | hm
      · simp
      · have hne : a.reg ≠ k.reg := fun e => hn.1 (e ▸ List.mem_map_of_mem hm)
        rw [List.find?_cons_of_neg (by simpa using hne)]
        exact ih hm hn.2
  unfold pickWrite
  rw [if_neg hc, hf]

/-- No write is picked that is not pending or not allowed yet. -/
theorem pickWrite_none {r : RegName} {ks : List RegWrite}
    (h : (r ≠ .init ∧ ∃ k ∈ ks, k.reg = .init) ∨ ∀ k ∈ ks, k.reg ≠ r) : pickWrite r ks = none := by
  cases hp : pickWrite r ks with
  | none => rfl
  | some p =>
    obtain ⟨hm, hr, -, ha⟩ := pickWrite_some (k := p.1) (rest := p.2) hp
    rcases h with ⟨hn, k, hk, e⟩ | h
    · exact (ha.elim hn (fun h => h k hk e)).elim
    · exact (h _ hm hr).elim

/-- D's write step either changes nothing or performs one allowed pending write. -/
theorem writeStep_cases (r : RegName) (s : State) :
    writeStep r s = s ∨
    ∃ ks k, s.phase = .writing ks ∧ k ∈ ks ∧ k.reg = r ∧ (r = .init ∨ ∀ k' ∈ ks, k'.reg ≠ .init) ∧
      writeStep r s = { storeReg k s with phase := phaseOf (ks.erase k) } := by
  cases hp : s.phase with
  | idle => exact .inl (by simp [writeStep, hp])
  | writing ks =>
    cases hk : pickWrite r ks with
    | none => exact .inl (by simp [writeStep, hp, hk])
    | some p =>
      obtain ⟨hm, hr, he, ha⟩ := pickWrite_some (k := p.1) (rest := p.2) hk
      exact .inr ⟨ks, p.1, rfl, hm, hr, ha, by simp [writeStep, hp, hk, he]⟩

/-! ## Visibility to the read port -/

/-- Writes of other registers commute with a write. -/
theorem foldl_apply_comm {k : RegWrite} {as : List RegWrite} (h : ∀ k' ∈ as, k'.reg ≠ k.reg) (f : RegFile) :
    as.foldl RegFile.apply (f.apply k) = (as.foldl RegFile.apply f).apply k := by
  induction as generalizing f with
  | nil => rfl
  | cons a as ih =>
    rw [List.foldl_cons, List.foldl_cons, apply_comm (Ne.symm (h a (by simp)))]
    exact ih (fun k' hk' => h k' (by simp [hk'])) _

/-- The write picked is the register's oldest unseen one, and no INIT write is unseen before it. -/
theorem pickUnseen_some {r : RegName} {ks : List RegWrite} {k : RegWrite} {rest : List RegWrite}
    (h : pickUnseen r ks = some (k, rest)) :
    ∃ a b, ks = a ++ k :: b ∧ rest = a ++ b ∧ k.reg = r ∧ ∀ k' ∈ a, k'.reg ≠ r ∧ k'.reg ≠ .init := by
  induction ks generalizing rest with
  | nil => cases h
  | cons c cs ih =>
    unfold pickUnseen at h
    split at h
    · rename_i hc
      cases h
      exact ⟨[], cs, rfl, rfl, by simpa using hc, by simp⟩
    · rename_i hr
      split at h
      · cases h
      · rename_i hi
        obtain ⟨⟨k₁, rest₁⟩, h₁, h₂⟩ := Option.map_eq_some_iff.1 h
        cases h₂
        obtain ⟨a, b, rfl, rfl, hk, ha⟩ := ih h₁
        refine ⟨c :: a, b, rfl, rfl, hk, ?_⟩
        intro k' hk'
        rcases List.mem_cons.1 hk' with rfl | hm
        · exact ⟨by simpa using hr, by simpa using hi⟩
        · exact ha k' hm

/-- A register's oldest unseen write is picked if no INIT write is unseen before it. -/
theorem pickUnseen_append {k : RegWrite} {a : List RegWrite} (b : List RegWrite)
    (h : ∀ k' ∈ a, k'.reg ≠ k.reg ∧ k'.reg ≠ .init) : pickUnseen k.reg (a ++ k :: b) = some (k, a ++ b) := by
  induction a with
  | nil => simp [pickUnseen]
  | cons c cs ih =>
    have hc := h c (by simp)
    simp [pickUnseen, hc.1, hc.2, ih (fun k' hk' => h k' (by simp [hk']))]

/-- Showing a register changes nothing, or shows its oldest unseen write. -/
theorem seeReg_cases (r : RegName) (s : State) :
    seeReg r s = s ∨
    ∃ a k b, s.unseen = a ++ k :: b ∧ k.reg = r ∧ (∀ k' ∈ a, k'.reg ≠ r ∧ k'.reg ≠ .init) ∧
      seeReg r s = { s with view := s.view.apply k, unseen := a ++ b } := by
  cases hp : pickUnseen r s.unseen with
  | none => exact .inl (by simp [seeReg, hp])
  | some p =>
    obtain ⟨a, b, e, e', hk, ha⟩ := pickUnseen_some (k := p.1) (rest := p.2) hp
    exact .inr ⟨a, p.1, b, e, hk, ha, by simp [seeReg, hp, e']⟩

/-! ## What a step can do -/

/-- Every operation's meaning answers a next state. -/
theorem exec_next (i : Instr) (s : State) : ∃ t, exec i s = .next t := by
  cases i <;> exact ⟨_, rfl⟩

/-- With `rst` asserted, an event leaves the block at its reset values. -/
theorem runHeld_eq (e : Event) {s : State} (h : s.rst = true) :
    runHeld e s = { resetBlock s with lines := e.linesAfter s.lines, rst := e.rstAfter } := by
  cases e <;> simp [runHeld, Event.linesAfter, Event.rstAfter, resetBlock, h]

theorem runEvent_held {e : Event} {s : State} (h : s.rst = true) : runEvent e s = .next (runHeld e s) := by
  simp [runEvent, h]

theorem runEvent_free {e : Event} {s : State} (h : s.rst = false) : runEvent e s = runFree e s := by
  simp [runEvent, h]

/-- The one-step decode waits or takes the head and runs the operation it selects. -/
theorem decodeWhole_cases (s : State) :
    ((s.qVis = [] ∨ s.phase ≠ .idle) ∧ decodeWhole s = .next s) ∨
    ∃ q rest, s.phase = .idle ∧ s.qVis = q :: rest ∧ decodeWhole s = exec (decodeQW q) (takeHead q s) := by
  unfold decodeWhole; split <;> simp_all

theorem step_event {s : State} {e : Event} {es : List Event} (h : s.sched = e :: es) :
    step s = runEvent e { s with sched := es } := by simp [step, runStep, h]

theorem step_idle {s : State} (h : s.sched = []) : step s = idleStep s := by simp [step, runStep, h]

end Sys2Proof.Machine
end

