-- ==== Sys2Proof/Laws/Operands.lean ====
section
/-! SUPPORT. The operand slices as numbers, the accumulator's arithmetic and INIT, said once; the register file under
the writes of a decode. -/

namespace Sys2Proof.Machine

/-! ## The payload window -/

/-- `P[7:2]` as a number. -/
theorem payloadLow_eq (q : QWord) : payloadLow q = BitVec.ofNat 6 (q.toNat / 2 ^ 6) := by
  apply BitVec.eq_of_toNat_eq
  simp [payloadLow, payload, Nat.shiftRight_eq_div_pow, Nat.div_div_eq_div_mul]

/-- `P[13:8]` as a number. -/
theorem payloadHigh_eq (q : QWord) : payloadHigh q = BitVec.ofNat 6 (q.toNat / 2 ^ 12) := by
  apply BitVec.eq_of_toNat_eq
  simp [payloadHigh, payload, Nat.shiftRight_eq_div_pow, Nat.div_div_eq_div_mul]

/-- `P[13:3]` as a number. -/
theorem payloadButtons_eq (q : QWord) : payloadButtons q = BitVec.ofNat 11 (q.toNat / 2 ^ 7) := by
  apply BitVec.eq_of_toNat_eq
  simp [payloadButtons, payload, Nat.shiftRight_eq_div_pow, Nat.div_div_eq_div_mul]

/-- `63 - P[13:8]` as a number. -/
theorem invertAxis_payloadHigh (q : QWord) :
    invertAxis (payloadHigh q) = BitVec.ofNat 6 (63 - q.toNat / 2 ^ 12 % 64) := by
  rw [payloadHigh_eq]
  apply BitVec.eq_of_toNat_eq
  have : (q.toNat / 2 ^ 12) % 64 < 64 := Nat.mod_lt _ (by decide)
  simp [invertAxis, BitVec.toNat_sub]
  omega

/-- `P[i]` is bit `i + 4` of the queue word. -/
theorem payloadBit_eq (q : QWord) (i : Nat) : payloadBit q i = BitVec.ofBool (q.getLsbD (i + 4)) := by
  apply BitVec.eq_of_getLsbD_eq
  intro j hj
  obtain rfl : j = 0 := by omega
  simp [payloadBit, payload, Nat.add_comm]

/-- The difference of two bits, as an integer. -/
theorem bitDiff_toInt (a b : Bool) :
    (bitDiff (BitVec.ofBool a) (BitVec.ofBool b)).toInt = (a.toNat : Int) - b.toNat := by
  cases a <;> cases b <;> decide

/-- A difference of two bits is never the pattern `0b10` (R33 to R36). -/
theorem bitDiff_ne (a b : Level) : bitDiff a b ≠ 0b10#2 := by revert a b; decide

/-! ## The accumulator -/

@[simp] theorem dataBit_mkSample (d c : Level) : dataBit (mkSample d c) = d := by revert d c; decide

@[simp] theorem clockBit_mkSample (d c : Level) : clockBit (mkSample d c) = c := by revert d c; decide

/-- The saturating increment as a number. -/
theorem cntIncr_eq (c : BitVec 5) : cntIncr c = BitVec.ofNat 5 (min (c.toNat + 1) 31) := by revert c; decide

theorem cntIncr_toNat (c : BitVec 5) : (cntIncr c).toNat = min (c.toNat + 1) 31 := by revert c; decide

/-- The shifted accumulator as a number. -/
theorem accShift_eq (a : Frame) (d : Level) :
    (a <<< 1) ||| d.zeroExtend 20 = BitVec.ofNat 20 (2 * a.toNat + d.toNat) := by
  have hd : d = 0#1 ∨ d = 1#1 := by revert d; decide
  have key : (a <<< 1) ||| d.zeroExtend 20 = (a <<< 1) + d.zeroExtend 20 := by
    rw [BitVec.add_eq_or_of_and_eq_zero]
    apply BitVec.eq_of_getLsbD_eq
    intro j hj
    rcases hd with rfl | rfl
    · simp
    · simp [BitVec.getLsbD_one]
      omega
  rw [key]
  apply BitVec.eq_of_toNat_eq
  have := a.isLt
  rcases hd with rfl | rfl <;> simp [BitVec.toNat_add, Nat.shiftLeft_eq] <;> omega

/-! ## INIT and the register file -/

theorem initHas_initUpdate_self (m : BitVec 4) (f : BitVec 2) : initHas (initUpdate m f) f = true := by
  revert m f; decide

theorem initHas_initUpdate_mono (m : BitVec 4) (f g : BitVec 2) (h : initHas m g = true) :
    initHas (initUpdate m f) g = true := by revert m f g; decide

/-- The writes of an accepted word of field 0 to 3: INIT's bit, then registers of that field, each once. -/
theorem writesOf_shape (q : QWord) (h : classQW q ≠ .reject) (h' : classQW q ≠ .fx) :
    ∃ (n : BitVec 2) (ks : List RegWrite), writesOf q = .init n :: ks ∧
      (∀ k ∈ ks, k.legal ∧ k.reg.field = some n) ∧
      ((writesOf q).map RegWrite.reg).Nodup ∧ (writesOf q).length ≤ 6 := by
  cases hc : classQW q <;> simp [hc] at h h' <;>
    simp [writesOf, hc, writesF0, writesF1, writesF2, writesF3, RegWrite.legal, RegWrite.reg, RegName.field,
      bitDiff_ne]

/-- Writes leave a register none of them writes alone. -/
theorem read_foldl_ne {ks : List RegWrite} {r : RegName} (h : ∀ k ∈ ks, k.reg ≠ r) (f : RegFile) :
    (ks.foldl RegFile.apply f).read r = f.read r := by
  induction ks generalizing f with
  | nil => rfl
  | cons k ks ih =>
    rw [List.foldl_cons, ih (fun k' hk' => h k' (by simp [hk'])), read_apply_ne (h k (by simp))]

end Sys2Proof.Machine
end

