-- ==== Sys2Proof/Laws/PerInstr.lean ====
section
/-! SUPPORT. Statements made instruction by instruction, one lemma per constructor. -/

namespace Sys2Proof.Laws.EncodedLength

/-- An instruction that has an encoding is encoded in as many bytes as its format has. -/
def Statement (i : Instr) : Prop := ∀ (f : Format) (bs : List Byte), encode i = some (f, bs) → bs.length = f.size

theorem edgeClkRise (a : Sample) (b c : Level) : Statement (.edgeClkRise a b c) := by
  intro f bs h; cases h; rfl

theorem edgeClkFall (a : Sample) (b c : Level) : Statement (.edgeClkFall a b c) := by
  intro f bs h; cases h; rfl

theorem edgeGap010 : Statement (.edgeGap010) := by
  intro f bs h; cases h; rfl

theorem edgeGap101 : Statement (.edgeGap101) := by
  intro f bs h; cases h; rfl

theorem edgeDataHigh (a : Sample) (b c : Level) : Statement (.edgeDataHigh a b c) := by
  intro f bs h; cases h; rfl

theorem edgeDataWHigh (a b c : Level) : Statement (.edgeDataWHigh a b c) := by
  intro f bs h; cases h; rfl

theorem edgeDataStay0 (a : Level) : Statement (.edgeDataStay0 a) := by
  intro f bs h; cases h; rfl

theorem edgeDataStay1 (a : Level) : Statement (.edgeDataStay1 a) := by
  intro f bs h; cases h; rfl

theorem edgeDataToggle01 : Statement (.edgeDataToggle01) := by
  intro f bs h; cases h; rfl

theorem edgeDataToggle10 : Statement (.edgeDataToggle10) := by
  intro f bs h; cases h; rfl

theorem decReject (a : QWord) : Statement (.decReject a) := by
  intro f bs h; cases h; rfl

theorem decF0 (a : QWord) : Statement (.decF0 a) := by
  intro f bs h; cases h; rfl

theorem decF1 (a : QWord) : Statement (.decF1 a) := by
  intro f bs h; cases h; rfl

theorem decF2 (a : QWord) : Statement (.decF2 a) := by
  intro f bs h; cases h; rfl

theorem decF3 (a : QWord) : Statement (.decF3 a) := by
  intro f bs h; cases h; rfl

theorem decFx (a : QWord) : Statement (.decFx a) := by
  intro f bs h; cases h; rfl

theorem enq (a : QWord) : Statement (.enq a) := by
  intro f bs h; cases h

theorem deq : Statement (.deq) := by
  intro f bs h; cases h

theorem publish : Statement (.publish) := by
  intro f bs h; cases h

theorem release : Statement (.release) := by
  intro f bs h; cases h

theorem rd (a : RdAddr) : Statement (.rd a) := by
  intro f bs h; cases h; rfl

theorem rst : Statement (.rst) := by
  intro f bs h; cases h

end Sys2Proof.Laws.EncodedLength
end

