-- ==== Sys2Proof/Laws/Sampler.lean ====
section
/-! SUPPORT. An edge step by the class of its history word, and what a boundary does, said once. -/

namespace Sys2Proof.Machine

/-- The sample an edge operation carries in its operands; any sample for another operation. -/
def edgeSampleOf : Instr → Sample
  | .edgeClkRise _ _ ud => mkSample ud 1#1
  | .edgeClkFall _ _ ud => mkSample ud 0#1
  | .edgeGap010 => 0b00#2
  | .edgeGap101 => 0b10#2
  | .edgeDataHigh _ _ ud => mkSample ud 1#1
  | .edgeDataWHigh _ _ ud => mkSample ud 0#1
  | .edgeDataStay0 _ => 0b00#2
  | .edgeDataStay1 _ => 0b10#2
  | .edgeDataToggle01 => 0b10#2
  | .edgeDataToggle10 => 0b00#2
  | _ => 0b00#2

/-- The operation a history word selects carries the word's `u`. -/
theorem edgeSampleOf_decodeHist : ∀ w v u : Sample, edgeSampleOf (decodeHist (mkHist w v u)) = u := by decide

theorem exec_decodeHist_clk {h : HistWord} (hc : classHist h = .clk) (s : State) :
    exec (decodeHist h) s = .next (edgeClk (edgeSampleOf (decodeHist h)) s) := by
  unfold decodeHist
  simp only [hc]
  split <;> rfl

theorem exec_decodeHist_gap {h : HistWord} (hc : classHist h = .gap) (s : State) :
    exec (decodeHist h) s = .next (edgeGap (edgeSampleOf (decodeHist h)) s) := by
  unfold decodeHist
  simp only [hc]
  split <;> rfl

theorem exec_decodeHist_data {h : HistWord} (hc : classHist h = .data) (s : State) :
    exec (decodeHist h) s = .next (edgeData (edgeSampleOf (decodeHist h)) s) := by
  unfold decodeHist
  simp only [hc]
  split_ifs <;> rfl

/-- An edge step is EDGE.CLK, EDGE.GAP or EDGE.DATA with its sample, by the class of the history word (R76, R100). -/
theorem exec_edgeOp (u : Sample) (s : State) :
    (classHist (mkHist s.w s.v u) = .clk ∧ exec (edgeOp u s) s = .next (edgeClk u s)) ∨
    (classHist (mkHist s.w s.v u) = .gap ∧ exec (edgeOp u s) s = .next (edgeGap u s)) ∨
    (classHist (mkHist s.w s.v u) = .data ∧ exec (edgeOp u s) s = .next (edgeData u s)) := by
  have hu := edgeSampleOf_decodeHist s.w s.v u
  cases hc : classHist (mkHist s.w s.v u)
  · exact .inl ⟨rfl, by rw [edgeOp, exec_decodeHist_clk hc, hu]⟩
  · exact .inr (.inl ⟨rfl, by rw [edgeOp, exec_decodeHist_gap hc, hu]⟩)
  · exact .inr (.inr ⟨rfl, by rw [edgeOp, exec_decodeHist_data hc, hu]⟩)

/-- What a boundary does: emit, drop as FULL, or discard the wrong length; the accumulator cleared (R104). -/
theorem closeFrame_eq (s : State) :
    (s.cnt = 20#5 ∧ s.occ < 10 ∧
      closeFrame s = { s with acc := 0#20, cnt := 0#5, qPend := s.qPend ++ [s.acc.zeroExtend 32],
                              history := .enqueued (s.acc.zeroExtend 32) :: s.history }) ∨
    (s.cnt = 20#5 ∧ 10 ≤ s.occ ∧
      closeFrame s = { s with acc := 0#20, cnt := 0#5,
                              history := .discFull ((s.acc.zeroExtend 32).truncate 20) :: s.history }) ∨
    (s.cnt ≠ 20#5 ∧ closeFrame s = { s with acc := 0#20, cnt := 0#5, history := .discLen s.cnt :: s.history }) := by
  by_cases hc : s.cnt = 20#5
  · rcases enqueue_eq (s.acc.zeroExtend 32) s with ⟨h, e⟩ | ⟨h, e⟩
    · exact .inl ⟨hc, h, by simp only [closeFrame, Config.frameBits, hc, beq_self_eq_true, if_true, e, clearAcc]⟩
    · exact .inr (.inl ⟨hc, h, by simp only [closeFrame, Config.frameBits, hc, beq_self_eq_true, if_true, e, clearAcc]⟩)
  · exact .inr (.inr ⟨hc, by simp [closeFrame, Config.frameBits, hc, observe, clearAcc]⟩)

/-- An edge step that shows no new label made no ENQ request. -/
theorem requestSeen_of_history_eq {s t : State} (h : t.history = s.history) : requestSeen s t = [] := by
  have hne : ∀ (o : Obs) (l : List Obs), s.history = o :: l → l ≠ s.history := by
    intro o l e he
    have := congrArg List.length (e.trans (congrArg (o :: ·) he))
    simp at this
  unfold requestSeen
  rw [h]
  split
  · rename_i e; rw [if_neg (hne _ _ e)]
  · rename_i e; rw [if_neg (hne _ _ e)]
  · rfl

end Sys2Proof.Machine
end

