-- ==== Sys2Proof/Tests/Slice0.lean ====
section
/-! SUPPORT. The model's own tests. Expected values are those the spec prints (95_test_vectors.md and the examples of the
rules named in each comment); words are written out bit by bit from R76, R78 and R75. After them, for every statement
that has hypotheses, a theorem that shows a concrete state and operands meeting them together. -/

namespace Sys2Proof.Tests

open Sys2Proof.Machine

/-! ## Helpers -/

/-- The state an outcome answers, if it answers one. -/
def nextOf (o : Host.Outcome State Fault Refusal) : Option State :=
  match o with
  | .next t => some t
  | .fault _ => none
  | .refused _ => none

/-- What an outcome's state holds at `f`. -/
def at? {α : Type} (o : Host.Outcome State Fault Refusal) (f : State → α) : Option α := (nextOf o).map f

/-- The sampler's registers `w`, `v`, `acc` and `cnt` over the reset state. -/
def sampling (w v : Sample) (acc : Frame) (cnt : BitVec 5) : State :=
  { State.reset with w := w, v := v, acc := acc, cnt := cnt }

/-- One edge step with sample `u`, as the history word selects it: `w`, `v`, `acc` and `cnt` after it. -/
def edgeResult (u : Sample) (s : State) : Option (Sample × Sample × Frame × BitVec 5) :=
  at? (exec (edgeOp u s) s) (fun t => (t.w, t.v, t.acc, t.cnt))

/-- What a decode of one word leaves in the register file, from reset. -/
def decoded (q : QWord) : Option RegFile := at? (exec (decodeQW q) State.reset) (fun t => t.regs)

/-- Words visible to D, over the reset state. -/
def withVisible (qs : List QWord) : State := { State.reset with qVis := qs }

/-! ## The decoder: words written out from the spec -/

/-- R76 row 1, `xxx0x1` with `w = 01`, `v = 00`, `u = 01` (E1). -/
theorem test_word_edgeClkRise : decodeTableWord 8 0b010001 = some (.edgeClkRise 0b01#2 0#1 0#1) := by decide
/-- R76 row 2, `xxx1x0` with `w = 10`, `v = 11`, `u = 10` (E3). -/
theorem test_word_edgeClkFall : decodeTableWord 8 0b101110 = some (.edgeClkFall 0b10#2 1#1 1#1) := by decide
/-- R76 row 3. -/
theorem test_word_edgeGap010 : decodeTableWord 8 0b001000 = some .edgeGap010 := by decide
/-- R76 row 4. -/
theorem test_word_edgeGap101 : decodeTableWord 8 0b100010 = some .edgeGap101 := by decide
/-- R76 row 5, `xxx1x1` with `w = 00`, `v = 01`, `u = 11` (E11). -/
theorem test_word_edgeDataHigh : decodeTableWord 8 0b000111 = some (.edgeDataHigh 0b00#2 0#1 1#1) := by decide
/-- R76 row 6, `x1x0x0` with `w = 01`, `v = 00`, `u = 10` (E12). -/
theorem test_word_edgeDataWHigh : decodeTableWord 8 0b010010 = some (.edgeDataWHigh 0#1 0#1 1#1) := by decide
/-- R76 row 7, `x00000` with `w = 10`. -/
theorem test_word_edgeDataStay0 : decodeTableWord 8 0b100000 = some (.edgeDataStay0 1#1) := by decide
/-- R76 row 8, `x01010` with `w = 00`. -/
theorem test_word_edgeDataStay1 : decodeTableWord 8 0b001010 = some (.edgeDataStay1 0#1) := by decide
/-- R76 row 9. -/
theorem test_word_edgeDataToggle01 : decodeTableWord 8 0b000010 = some .edgeDataToggle01 := by decide
/-- R76 row 10. -/
theorem test_word_edgeDataToggle10 : decodeTableWord 8 0b101000 = some .edgeDataToggle10 := by decide
/-- R154: f0 with bit 0 flipped; field `00`, prefix `0x00FC`, check `0010`. -/
theorem test_word_decReject : decodeTableWord 32 0b00000000000000000000111111000010
    = some (.decReject 0x00000FC2#32) := by decide
/-- R157: f0, field `00`, raw Y `000000`, X `111111`, ignored `00`, check `0011`. -/
theorem test_word_decF0 : decodeTableWord 32 0b00000000000000000000111111000011
    = some (.decF0 0x00000FC3#32) := by decide
/-- R158: f1, field `01`, RT `110010`, LT `001010`, ignored `00`, check `0101`. -/
theorem test_word_decF1 : decodeTableWord 32 0b00000000000001110010001010000101
    = some (.decF1 0x00072285#32) := by decide
/-- R159: f2, field `10`, THR `100001`, direction bits `01111010`, check `1001`. -/
theorem test_word_decF2 : decodeTableWord 32 0b00000000000010100001011110101001
    = some (.decF2 0x000A17A9#32) := by decide
/-- R160: f3, field `11`, BTN `10110000011`, ignored `000`, check `0001`. -/
theorem test_word_decF3 : decodeTableWord 32 0b00000000000011101100000110000001
    = some (.decF3 0x000EC181#32) := by decide
/-- R161: `0x0010000B`, accepted, field index 4. -/
theorem test_word_decFx : decodeTableWord 32 0x0010000B = some (.decFx 0x0010000B#32) := by decide
/-- R75: read address 9. -/
theorem test_word_rd : decodeTableWord 4 0b1001 = some (.rd 9#4) := by decide
/-- R58: a bit above a format's width is no word of the format, and so is a wrong number of bytes. -/
theorem test_word_refused :
    decode .hist [0b01000000#8] = .refused .bitsAboveWidth ∧ decode .rda [0b00010000#8] = .refused .bitsAboveWidth ∧
    decode .qw [0x00#8] = .refused .wrongLength := by decide

/-- The words placed where `step` takes its next operation from are the ones it runs. -/
theorem test_fetch_hist : nextOf (step (State.reset.withFetchWord 8 0b100010))
    = nextOf (exec .edgeGap101 { State.reset with w := 0b10#2, v := 0b00#2, lines := 0b10#2 }) := by decide
theorem test_fetch_qw : at? (step (State.reset.withFetchWord 32 0x00072285)) (fun t => (t.regs.lt, t.regs.rt))
    = some (10#6, 50#6) := by decide
theorem test_fetch_rd : nextOf (step (State.reset.withFetchWord 4 9)) = nextOf (exec (.rd 9#4) State.reset) := by decide

/-! ## WellFormed: every check refuses an ill-formed term -/

theorem test_illFormed_decReject : wellFormed (.decReject 0x00000FC3#32) = false := by decide
theorem test_illFormed_decF0_crc : wellFormed (.decF0 0x00000FC2#32) = false := by decide
theorem test_illFormed_decF0_field : wellFormed (.decF0 0x00072285#32) = false := by decide
theorem test_illFormed_decF1_crc : wellFormed (.decF1 0x00040000#32) = false := by decide
theorem test_illFormed_decF1_field : wellFormed (.decF1 0x00000FC3#32) = false := by decide
theorem test_illFormed_decF2_crc : wellFormed (.decF2 0x00080000#32) = false := by decide
theorem test_illFormed_decF2_field : wellFormed (.decF2 0x000EC181#32) = false := by decide
theorem test_illFormed_decF3_crc : wellFormed (.decF3 0x000FFFFF#32) = false := by decide
theorem test_illFormed_decF3_field : wellFormed (.decF3 0x000A17A9#32) = false := by decide
theorem test_illFormed_decFx_crc : wellFormed (.decFx 0x00100000#32) = false := by decide
theorem test_illFormed_decFx_field : wellFormed (.decFx 0x00000FC3#32) = false := by decide
theorem test_illFormed_enq : wellFormed (.enq 0x00100000#32) = false := by decide
theorem test_wellFormed_each :
    wellFormed (.decReject 0x00000FC2#32) = true ∧ wellFormed (.decF0 0x00000FC3#32) = true ∧
    wellFormed (.decF1 0x00072285#32) = true ∧ wellFormed (.decF2 0x000A17A9#32) = true ∧
    wellFormed (.decF3 0x000EC181#32) = true ∧ wellFormed (.decFx 0x0010000B#32) = true ∧
    wellFormed (.enq 0x000FFFFF#32) = true := by decide

/-! ## Edge steps (95_test_vectors.md section 2.2) -/

/-- E1: the count saturates. -/
theorem test_edgeClkRise_saturates : edgeResult 0b01#2 (sampling 0b01#2 0b00#2 0x12345#20 31#5)
    = some (0b00#2, 0b01#2, 0x2468A#20, 31#5) := by decide
/-- E2: bit 19 is shifted out. -/
theorem test_edgeClkRise_losesBit19 : edgeResult 0b01#2 (sampling 0b01#2 0b00#2 0xFFFFF#20 20#5)
    = some (0b00#2, 0b01#2, 0xFFFFE#20, 21#5) := by decide
/-- E3: a 1 folded on a falling edge. -/
theorem test_edgeClkFall_folds1 : edgeResult 0b10#2 (sampling 0b10#2 0b11#2 0x00001#20 1#5)
    = some (0b11#2, 0b10#2, 0x00003#20, 2#5) := by decide
/-- E13: both data toggles, the clock high in between, is no gap. -/
theorem test_edgeClkFall_noGap : edgeResult 0b00#2 (sampling 0b00#2 0b11#2 0x00005#20 3#5)
    = some (0b11#2, 0b00#2, 0x0000A#20, 4#5) := by decide
/-- E10: both lines changed; folds the new data level. -/
theorem test_bothLines : edgeResult 0b11#2 (sampling 0b10#2 0b00#2 0x00005#20 3#5)
    = some (0b00#2, 0b11#2, 0x0000B#20, 4#5) := by decide
/-- E4: a gap with 20 bits and room. -/
theorem test_edgeGap101_emits :
    at? (exec .edgeGap101 (sampling 0b10#2 0b00#2 0x00FC3#20 20#5)) (fun t => (t.w, t.v, t.acc, t.cnt, t.qPend))
    = some (0b00#2, 0b10#2, 0x00000#20, 0#5, [0x00000FC3#32]) := by decide
/-- E5: a gap with 20 bits, the FIFO full. -/
theorem test_edgeGap101_full :
    at? (exec .edgeGap101 { sampling 0b10#2 0b00#2 0x00FC3#20 20#5 with nFreePend := 10 })
      (fun t => (t.acc, t.cnt, t.contents, t.history))
    = some (0x00000#20, 0#5, [], [.discFull 0x00FC3#20]) := by decide
/-- E7: a gap with 21 bits. -/
theorem test_edgeGap010_discards :
    at? (exec .edgeGap010 (sampling 0b00#2 0b10#2 0x01F86#20 21#5)) (fun t => (t.w, t.v, t.acc, t.cnt, t.contents))
    = some (0b10#2, 0b00#2, 0x00000#20, 0#5, []) := by decide
/-- E8: a gap with an empty accumulator. -/
theorem test_edgeGap010_empty :
    at? (exec .edgeGap010 (sampling 0b00#2 0b10#2 0x00000#20 0#5)) (fun t => t.history) = some [.discLen 0#5] := by
  decide
/-- E11: a data change, the clock high. -/
theorem test_edgeDataHigh : edgeResult 0b11#2 (sampling 0b00#2 0b01#2 0x00005#20 3#5)
    = some (0b01#2, 0b11#2, 0x00005#20, 3#5) := by decide
/-- E12: the second toggle, the clock high two samples ago. -/
theorem test_edgeDataWHigh : edgeResult 0b10#2 (sampling 0b01#2 0b00#2 0x00005#20 3#5)
    = some (0b00#2, 0b10#2, 0x00005#20, 3#5) := by decide
/-- E9: no line changed. -/
theorem test_edgeDataStay0 : edgeResult 0b00#2 (sampling 0b00#2 0b00#2 0x00005#20 3#5)
    = some (0b00#2, 0b00#2, 0x00005#20, 3#5) := by decide
/-- Section 2.4: the spurious strobe inside a gap, `H = 00 10 10`. -/
theorem test_edgeDataStay1 : edgeResult 0b10#2 (sampling 0b00#2 0b10#2 0x00000#20 0#5)
    = some (0b10#2, 0b10#2, 0x00000#20, 0#5) := by decide
/-- Section 2.4: the step after it, `H = 10 10 00`, is no gap. -/
theorem test_edgeDataToggle10 : edgeResult 0b00#2 (sampling 0b10#2 0b10#2 0x00005#20 3#5)
    = some (0b10#2, 0b00#2, 0x00005#20, 3#5) := by decide
/-- Section 2.3: the first step after reset, `u = 10`. -/
theorem test_edgeDataToggle01 : edgeResult 0b10#2 State.reset = some (0b00#2, 0b10#2, 0x00000#20, 0#5) := by decide

/-! ## Checksum (section 3) and decodes (section 4) -/

theorem test_crcFold : crcFold 0x00000FC3#32 = 0x00000FDC#32 ∧ crcFold 0xFFF0000B#32 = 0xFE0C1FCB#32 := by decide
theorem test_crcOk_accepts : [0x00000000#32, 0x0000FC09#32, 0x000FFFF9#32, 0xFFF0000B#32].all crcOk = true := by decide
theorem test_crcOk_rejects :
    [0x00000FC0#32, 0x0000FC00#32, 0x000FFFFF#32, 0x00000001#32, 0x00000010#32, 0x00080000#32, 0x00100000#32].any
      crcOk = false := by decide

/-- Scenario 1. -/
theorem test_decF0_scenario1 : decoded 0x00000FC3#32
    = some { RegFile.reset with x := 63#6, y := 63#6, init := 0b0001#4 } := by decide
theorem test_decF0_extremes : decoded 0x0003FFF0#32 = some { RegFile.reset with x := 63#6, init := 0b0001#4 } := by
  decide
theorem test_decF1 : decoded 0x00072285#32
    = some { RegFile.reset with lt := 10#6, rt := 50#6, init := 0b0010#4 } := by decide
theorem test_decF2_f2 : decoded 0x000A17A9#32
    = some { RegFile.reset with thr := 33#6, hatx := 0b01#2, haty := 0b11#2, dpady := 0b01#2, init := 0b0100#4 } := by
  decide
theorem test_decF2_minus : decoded 0x00080558#32
    = some { RegFile.reset with hatx := 0b11#2, haty := 0b01#2, dpadx := 0b11#2, dpady := 0b01#2, init := 0b0100#4 } := by
  decide
theorem test_decF3_scenario2 : decoded 0x000EC181#32
    = some { RegFile.reset with btn := 0b10110000011#11, init := 0b1000#4 } := by decide
theorem test_decF3_ignoresLowBits : decoded 0x000C007B#32 = some { RegFile.reset with init := 0b1000#4 } := by decide
theorem test_decFx : at? (exec (decodeQW 0xFFF0000B#32) State.reset) (fun t => (t.regs, t.history))
    = some (RegFile.reset, [.discField 0xFFF0000B#32]) := by decide
theorem test_decReject : at? (exec (decodeQW 0x00000FC2#32) State.reset) (fun t => (t.regs, t.history))
    = some (RegFile.reset, [.discCrc 0x00000FC2#32]) := by decide

/-! ## The FIFO (section 5), reads (section 6), reset (section 7) -/

/-- Q6: ENQ with ten visible words answers FULL. -/
theorem test_enq_full : (fifoEnq 0x00000285#32 (withVisible (List.replicate 10 0#32))).1 = .full := by decide
/-- Q1 step 1. -/
theorem test_enq_ok : at? (exec (.enq 0x00000FC3#32) State.reset) (fun t => (t.qVis, t.qPend, t.nFreePend))
    = some ([], [0x00000FC3#32], 0) := by decide
/-- R132's example. -/
theorem test_deq : at? (exec .deq (withVisible [0x00000FC3#32, 0x00072285#32]))
      (fun t => (t.qVis, t.nFreePend, t.phase))
    = some ([0x00072285#32], 1, .writing [.init 0#2, .x 63#6, .y 63#6]) := by decide
/-- Q1 step 2: no enabled step. -/
theorem test_deq_waits : nextOf (exec .deq { State.reset with qPend := [0x00000FC3#32] })
    = some { State.reset with qPend := [0x00000FC3#32] } := by decide
/-- Q2 step 6, one of the two PUBLISH. -/
theorem test_publish : at? (exec .publish { withVisible [1#32] with qPend := [2#32, 3#32] })
      (fun t => (t.qVis, t.qPend)) = some ([1#32, 2#32], [3#32]) := by decide
/-- Q1 step 5. -/
theorem test_release : at? (exec .release { State.reset with nFreePend := 1 }) (fun t => t.nFreePend) = some 0 := by
  decide
/-- HATY = −1 reads `0x0003`, not sign-extended. -/
theorem test_rd_direction : at? (exec (.rd 6#4) { State.reset with view := { RegFile.reset with haty := 0b11#2 } })
      (fun t => t.rdData) = some 0x0003#16 := by decide
/-- Addresses 11 to 15 read 0. -/
theorem test_rd_reserved :
    at? (exec (.rd 15#4) { State.reset with rdData := 0x0583#16, view := { RegFile.reset with btn := 0x583#11 } })
      (fun t => t.rdData) = some 0x0000#16 := by decide
/-- Q5: both words are lost. -/
theorem test_rst : at? (exec .rst { withVisible [1#32] with qPend := [2#32] }) (fun t => (t.contents, t.nFreePend))
    = some ([], 0) := by decide
/-- Section 7: reset between the INIT write and the X write abandons the rest of the decode. -/
theorem test_rst_abandons :
    at? (exec .rst { State.reset with phase := .writing [.x 63#6, .y 63#6], regs := { RegFile.reset with init := 1#4 } })
      (fun t => (t.phase, t.regs)) = some (.idle, RegFile.reset) := by decide

/-- Section 8.1: the samples of `F 0x00FC3` from the levels `00`, read as numbers. -/
theorem test_script_frame : bitSamples (frameBitsOf 0x00FC3#20) 0b00#2
    = [1, 0, 1, 0, 1, 0, 1, 0, 2, 3, 2, 3, 2, 3, 2, 0, 1, 0, 1, 0, 2, 3, 2] := by decide
/-- Section 8.1: the `G` after the frame. -/
theorem test_script_gap : gapSamples 0b10#2 = [0b00#2, 0b10#2] := by decide

/-- Review of R57: with INIT unseen in between, the second X of field 0 may not be shown before it. -/
theorem test_see_blocked :
    pickUnseen .x [.init 1#2, .lt 10#6, .init 0#2, .x 9#6] = none ∧
    pickUnseen .init [.lt 10#6, .init 0#2, .x 9#6] = some (.init 0#2, [.lt 10#6, .x 9#6]) ∧
    pickUnseen .x [.lt 10#6, .x 9#6, .x 8#6] = some (.x 9#6, [.lt 10#6, .x 8#6]) := by decide

/-! ## Witnesses: the hypotheses of each statement that has any, met together -/

/-- A decode in progress, a visible word, a pending word and a slot not yet seen as free. -/
def busy : State :=
  { State.reset with
    v := 0b01#2, acc := 0x00005#20, cnt := 3#5, qVis := [0x00072285#32], qPend := [0x000A17A9#32], nFreePend := 1
    phase := .writing [.x 63#6, .y 63#6], regs := { RegFile.reset with init := 0b0001#4 }
    view := { RegFile.reset with init := 0b0001#4 }
    history := [.dequeued 0x00000FC3#32, .enqueued 0x000A17A9#32, .enqueued 0x00072285#32, .enqueued 0x00000FC3#32] }

/-- The sampler right before a gap that completes frame f0, the strobe next. -/
def beforeGap : State :=
  { sampling 0b10#2 0b00#2 0x00FC3#20 20#5 with lines := 0b10#2, sched := [.strobe 0#1] }

/-- R has seen the INIT write of a decode of field 0 and neither its X nor anything of a decode of field 1. -/
def lagging : State :=
  { State.reset with
    regs := { RegFile.reset with x := 9#6, lt := 10#6, init := 0b0011#4 }
    view := { RegFile.reset with init := 0b0001#4 }
    unseen := [.x 9#6, .init 1#2, .lt 10#6], lag := true }

theorem busy_logged : busy.FifoLogged := by
  show acceptedWords busy.history = dequeuedWords busy.history ++ busy.contents
  decide

theorem busy_unset : busy.regs.unsetAtReset := by
  intro r h
  cases r <;> first | rfl | exact absurd h (by decide)

theorem busy_inv : busy.Inv where
  occ := by decide
  words := by
    intro q hq
    simp only [State.contents, busy, List.mem_append, List.mem_singleton] at hq
    rcases hq with rfl | rfl <;> decide
  accBits := by decide
  pending := by
    intro ks h
    cases h
    exact ⟨by decide, by decide, 0#2, by simp [RegWrite.legal, RegWrite.ofField, RegWrite.reg, RegName.field],
      .inr (by decide)⟩
  regsDirs := by simp [RegFile.dirsLegal, busy, RegFile.reset]
  viewDirs := by simp [RegFile.dirsLegal, busy, RegFile.reset]
  regsUnset := busy_unset
  viewUnset := busy_unset
  viewInit := by decide
  viewSync := ⟨rfl, fun _ => rfl⟩
  unseenOk := trivial
  held := fun h => absurd h (by decide)
  logged := busy_logged
  rdBits := by decide

theorem witness_EveryQueueWordSelectsOneDecodeClass :
    [0x00000FC3#32, 0x00072285#32, 0x000A17A9#32, 0x000EC181#32, 0x0010000B#32].all crcOk = true ∧
    crcOk 0x00000FC2#32 = false := by decide
theorem witness_DecodeOfEncodeIsTheInstruction :
    (wellFormed (.edgeDataStay1 1#1) = true ∧ encode (.edgeDataStay1 1#1) = some (.hist, [0b00101010#8])) ∧
    (wellFormed (.decF1 0x00072285#32) = true ∧
      encode (.decF1 0x00072285#32) = some (.qw, [0x85#8, 0x22#8, 0x07#8, 0x00#8])) ∧
    (wellFormed (.rd 15#4) = true ∧ encode (.rd 15#4) = some (.rda, [0x0F#8])) := by decide
theorem witness_EncodeOfDecodeIsTheBytes :
    decode .hist [0b00101000#8] = .instr .edgeDataToggle10 ∧
    decode .qw [0x0B#8, 0x00#8, 0xF0#8, 0xFF#8] = .instr (.decFx 0xFFF0000B#32) ∧
    decode .rda [0x00#8] = .instr (.rd 0#4) := by decide
theorem witness_EverySingleBitErrorIsRejected :
    0 < 20 ∧ 19 < 20 ∧ crcOk ((0x00FC3#20).zeroExtend 32) = true := by decide
theorem witness_AcceptedFramesAreClosedUnderXor :
    crcOk ((0x00FC3#20).zeroExtend 32) = true ∧ crcOk ((0x72285#20).zeroExtend 32) = true := by decide
theorem witness_EveryClockChangeFoldsTheDataLevel :
    (0b01#2).getLsbD 0 ≠ (sampling 0b01#2 0b00#2 0x12345#20 31#5).v.getLsbD 0 ∧
    (0b10#2).getLsbD 0 ≠ (sampling 0b10#2 0b11#2 0x00001#20 1#5).v.getLsbD 0 := by decide
theorem witness_EveryDataOnlyEdgeLeavesTheAccumulator :
    (0b10#2).getLsbD 0 = State.reset.v.getLsbD 0 ∧ gap 0b10#2 State.reset.v State.reset.w = false := by decide
theorem witness_GapEmitsOrDiscardsAndClears :
    (Instr.edgeGap010 = .edgeGap010 ∧ (0b00#2 : Sample) = 0b00#2) ∧
    (Instr.edgeGap101 = .edgeGap101 ∧ (0b10#2 : Sample) = 0b10#2) := by decide
theorem witness_BothLinesChangedFoldsTheNewLevel : 0b11#2 ^^^ State.reset.v = 0b11#2 ∧
    0b00#2 ^^^ (sampling 0b00#2 0b11#2 0x00005#20 3#5).v = 0b11#2 := by decide
theorem witness_FoldedBitsStandInWireOrder :
    State.reset.acc = 0#20 ∧ State.reset.cnt = 0#5 ∧ (frameBitsOf 0x00FC3#20).length ≤ 20 ∧
    (List.replicate 31 1#1).length = 31 := by decide
theorem witness_RequestsDependOnTheSamplesAlone :
    beforeGap.sampler = { beforeGap with nFreePend := 10 }.sampler ∧ beforeGap ≠ { beforeGap with nFreePend := 10 } := by
  decide
/-- The two samplers come from different accumulators, and have the same `v` and `w` after their gaps. -/
theorem witness_AGapResynchronisesTheSampler :
    classHist (mkHist beforeGap.w beforeGap.v 0b10#2) = .gap ∧
    classHist (mkHist 0b10#2 0b00#2 0b10#2) = .gap ∧
    edgeResult 0b10#2 beforeGap = edgeResult 0b10#2 (sampling 0b10#2 0b00#2 0x007E1#20 19#5) := by decide
theorem witness_OnlyCompleteFramesEnterTheFifo :
    ∃ t, step beforeGap = .next t ∧ beforeGap.qPend.length < t.qPend.length := ⟨_, rfl, by decide⟩
theorem witness_DeqTakesTheOldestVisibleWord :
    State.reset.phase = .idle ∧ (withVisible [0x00000FC3#32]).qVis = [0x00000FC3#32] ∧
    crcOk 0x00000FC3#32 = true ∧ (0x00000FC3#32).toNat / 2 ^ 18 ≤ 3 ∧ crcOk 0x00000FC2#32 = false ∧
    crcOk 0x000FFFF9#32 = true ∧ (0x000FFFF9#32).toNat / 2 ^ 18 = 3 ∧
    crcOk 0x0010000B#32 = true ∧ (0x0010000B#32).toNat / 2 ^ 18 = 4 := by decide
theorem witness_DecoderWaitsWithoutAVisibleEntryOrWhileWriting :
    (State.reset.qVis = [] ∧ State.reset.rst = false) ∧ (busy.phase ≠ .idle ∧ busy.rst = false) := by decide
theorem witness_PublishAndReleaseCrossOneAtATime :
    busy.qPend = [0x000A17A9#32] ∧ State.reset.qPend = [] ∧ busy.nFreePend = 0 + 1 ∧ State.reset.nFreePend = 0 := by
  decide
theorem witness_TenEnqueuesSucceedThenEveryOneIsFull :
    State.reset.occ = 0 ∧ ((List.replicate 11 (some 0#32)).filterMap id).length = 11 := by decide
theorem witness_FifoDeliversInOrderExactlyOnce :
    busy.FifoLogged ∧ busy.HeldAtReset ∧ ∃ t, step busy = .next t :=
  ⟨busy_logged, fun h => absurd h (by decide), _, rfl⟩
theorem witness_OccupancyNeverExceedsTheCapacity :
    (withVisible (List.replicate 10 0#32)).occ ≤ 10 ∧ ∃ t, step (withVisible (List.replicate 10 0#32)) = .next t :=
  ⟨by decide, _, rfl⟩
/-- Each pair of the law: (1, 0), (2, 3), (5, 4), (6, 7), on a DEC.F2 of f2. -/
theorem witness_DirectionRegistersHoldTheDifferenceOfTheirBits :
    ∃ t, exec (.decF2 0x000A17A9#32) State.reset = .next t ∧
      (t.regs.hatx, t.regs.haty, t.regs.dpadx, t.regs.dpady) = (0b01#2, 0b11#2, 0b00#2, 0b01#2) ∧
      (payload 0x000A17A9#32).getLsbD 1 = true ∧ (payload 0x000A17A9#32).getLsbD 0 = false ∧
      (payload 0x000A17A9#32).getLsbD 2 = false ∧ (payload 0x000A17A9#32).getLsbD 3 = true ∧
      (payload 0x000A17A9#32).getLsbD 5 = (payload 0x000A17A9#32).getLsbD 4 :=
  ⟨_, rfl, by decide⟩
theorem witness_DecodesNeverTouchAnotherField :
    (0x00000FC3#32).toNat / 2 ^ 18 = (0#2).toNat ∧ (0x000EC181#32).toNat / 2 ^ 18 = (3#2).toNat ∧
    busy.phase = .writing [.x 63#6, .y 63#6] ∧
    (∀ k ∈ [RegWrite.x 63#6, .y 63#6], k.ofField 0#2) ∧
    (RegName.lt ≠ .init ∧ RegName.lt.field ≠ some 0#2) ∧ (1#2 ≠ (0#2 : BitVec 2)) ∧
    RegWrite.x 63#6 ∈ writesOf 0x00000FC3#32 :=
  ⟨by decide, by decide, by decide, by simp [RegWrite.ofField, RegWrite.reg, RegName.field], by decide, by decide,
    by decide⟩
theorem witness_InitBitsAreNeverCleared :
    busy.rst = false ∧ (∀ e ∈ busy.sched.head?, e.resets = false) ∧ ∃ t, step busy = .next t :=
  ⟨by decide, by decide, _, rfl⟩
/-- A write allowed first, a write not allowed before INIT's, and a register without a pending write. -/
theorem witness_DecoderWritesOneRegisterAtATimeInitFirst :
    (busy.rst = false ∧ busy.phase = .writing [.x 63#6, .y 63#6] ∧
      ([RegWrite.x 63#6, .y 63#6].map RegWrite.reg).Nodup) ∧
    (RegWrite.y 63#6 ∈ [RegWrite.x 63#6, .y 63#6] ∧ ∀ k' ∈ [RegWrite.x 63#6, .y 63#6], k'.reg ≠ .init) ∧
    (RegName.x ≠ .init ∧ ∃ k ∈ [RegWrite.init 0#2, .x 63#6], k.reg = .init) ∧
    (∀ k ∈ [RegWrite.x 63#6, .y 63#6], k.reg ≠ .lt) := by decide
theorem witness_EveryAdmittedWriteOrderGivesTheSameDecode :
    State.reset.rst = false ∧ State.reset.phase = .idle ∧ (withVisible [0x00000FC3#32]).qVis = [0x00000FC3#32] ∧
    [RegName.init, .y, .x].Perm ((writesOf 0x00000FC3#32).map RegWrite.reg) ∧
    [RegName.init, .y, .x].head? = some .init ∧ (writesOf 0x00000FC2#32) = [] := by decide
/-- The table of the statement, in a state. -/
def readTable (s : State) : List (RdAddr × RdWord) :=
  [ (0#4, s.view.x.zeroExtend 16), (1#4, s.view.y.zeroExtend 16), (2#4, s.view.lt.zeroExtend 16),
    (3#4, s.view.rt.zeroExtend 16), (4#4, s.view.thr.zeroExtend 16), (5#4, s.view.hatx.zeroExtend 16),
    (6#4, s.view.haty.zeroExtend 16), (7#4, s.view.dpadx.zeroExtend 16), (8#4, s.view.dpady.zeroExtend 16),
    (9#4, s.view.btn.zeroExtend 16), (10#4, s.view.init.zeroExtend 16) ]
theorem witness_ReadReturnsTheAddressedRegister :
    (0#4, 0x0000#16) ∈ readTable busy ∧ (10#4, 0x0001#16) ∈ readTable busy ∧ busy.ViewInSync ∧ busy.lag = false :=
  ⟨by decide, by decide, ⟨rfl, fun _ => rfl⟩, rfl⟩
theorem witness_ReservedAddressesReadZero : 11 ≤ (11#4).toNat ∧ 11 ≤ (15#4).toNat := by decide
theorem witness_ReadersNeverSeeAnOlderWriteAgain :
    (busy.ViewInSync ∧ (∃ t, step busy = .next t) ∧ busy.rst = false ∧ (∀ e ∈ busy.sched.head?, e.resets = false)) ∧
    (lagging.ViewInSync ∧ ∃ t, step lagging = .next t) :=
  ⟨⟨⟨rfl, fun _ => rfl⟩, ⟨_, rfl⟩, by decide, by decide⟩, ⟨rfl, fun h => absurd h (by decide)⟩, _, rfl⟩
theorem witness_ASnapshotMayMixDecodes :
    busy.rst = false ∧ busy.lag = false ∧ busy.phase = .writing [.x 63#6, .y 63#6] := by decide
theorem witness_AReaderMayLagAcrossDecodes :
    State.reset.rst = false ∧ State.reset.lag = false ∧ State.reset.phase = .idle ∧
    (withVisible [0x00000000#32, 0x0003F00A#32, 0x00000FC3#32]).ViewInSync ∧
    (∀ q ∈ [0x00000000#32, 0x0003F00A#32, 0x00000FC3#32], classQW q = .f0) :=
  ⟨by decide, by decide, by decide, ⟨rfl, fun _ => rfl⟩, by
    intro q hq
    simp only [List.mem_cons, List.not_mem_nil, or_false] at hq
    rcases hq with rfl | rfl | rfl <;> decide⟩
/-- A write to show, one kept back by an INIT write, a register with none, and a register whose INIT bit is unseen. -/
theorem witness_ALaggingWriteIsSeenOnlyAfterInit :
    lagging.rst = false ∧ lagging.lag = true ∧
    (lagging.unseen = [] ++ .x 9#6 :: [.init 1#2, .lt 10#6] ∧ ∀ k' ∈ ([] : List RegWrite), k'.reg ≠ .init) ∧
    (lagging.unseen = [.x 9#6] ++ .init 1#2 :: [.lt 10#6] ∧ (∀ k ∈ [RegWrite.x 9#6], k.reg ≠ .lt) ∧
      RegName.lt ≠ .init) ∧
    (∀ k ∈ lagging.unseen, k.reg ≠ .btn) ∧
    UnseenOk lagging.view lagging.unseen ∧ lagging.view.meaningful .lt = false := by
  refine ⟨rfl, rfl, ⟨rfl, by simp⟩, ⟨rfl, by decide, by decide⟩, by decide, ?_, by decide⟩
  simp [UnseenOk, lagging, RegWrite.legal, RegWrite.reg, RegName.field, RegFile.apply]
  decide
theorem witness_WhileResetIsAssertedEveryEventIsLost : { State.reset with rst := true }.rst = true := by decide
/-- One schedule for each clause, the decode's with D idle and a visible word. -/
theorem witness_StepRunsTheSelectedOperation :
    beforeGap.rst = false ∧ beforeGap.sched = [.strobe 0#1] ∧
    { withVisible [0x00000FC3#32] with sched := [.decode] }.sched = [.decode] ∧
    (withVisible [0x00000FC3#32]).phase = .idle ∧ (withVisible [0x00000FC3#32]).qVis = [0x00000FC3#32] ∧
    { State.reset with sched := [.rdReq 9#4] }.sched = [.rdReq 9#4] ∧
    { State.reset with sched := [.deq] }.sched = [.deq] ∧
    { State.reset with sched := [.publish] }.sched = [.publish] ∧
    { State.reset with sched := [.release] }.sched = [.release] ∧
    { State.reset with sched := [.rst] }.sched = [.rst] ∧
    { State.reset with sched := [.drive 0b10#2] }.sched = [.drive 0b10#2] := by decide
theorem witness_StepRunsTheDecodedInstruction :
    decode .hist [0#2 ++ beforeGap.w ++ beforeGap.v ++ beforeGap.lines] = .instr .edgeGap101 ∧
    (withVisible [0x00000FC3#32]).qVis = [(0x00#8 ++ 0x00#8 ++ 0x0F#8 ++ 0xC3#8 : QWord)] ∧
    decode .qw [0xC3#8, 0x0F#8, 0x00#8, 0x00#8] = .instr (.decF0 0x00000FC3#32) ∧
    decode .rda [0#4 ++ 9#4] = .instr (.rd 9#4) := by decide
theorem witness_EachAgentWritesOnlyItsOwnState :
    busy.rst = false ∧ (∃ t, runEvent .publish busy = .next t) ∧ (∃ t, runEvent (.write .x) busy = .next t) :=
  ⟨by decide, ⟨_, rfl⟩, _, rfl⟩
theorem witness_EveryStepKeepsTheInvariant : busy.Inv ∧ ∃ t, step busy = .next t := ⟨busy_inv, _, rfl⟩
theorem witness_TheBlockDrainsWhenNothingIsScheduled : busy.Inv ∧ busy.rst = false ∧ busy.sched = [] :=
  ⟨busy_inv, by decide, by decide⟩

end Sys2Proof.Tests
end

section
/-! The read space (spec 20_memory.md): what a read of a reserved address does. -/

namespace Sys2Proof.Machine

/-- No register stands at a reserved address. -/
theorem regAt_of_reserved {a : RdAddr} (ha : 11 ≤ a.toNat) : regAt a = none := by
  unfold regAt
  split
  case h_12 => rfl
  all_goals omega

theorem readAddr_of_reserved (f : RegFile) {a : RdAddr} (ha : 11 ≤ a.toNat) : f.readAddr a = 0x0000#16 := by
  simp [RegFile.readAddr, regAt_of_reserved ha]

theorem exec_rd (a : RdAddr) (s : State) : exec (.rd a) s = .next (readPort a s) := rfl

/-- The frame of RD: it changes `rd_data` and the model's own history. -/
theorem readPort_eq (a : RdAddr) (s : State) :
    readPort a s = { s with rdData := s.view.readAddr a, history := (readPort a s).history } := rfl

/-- Settles O43: RD sets `rd_data` to the word at its address, and at a reserved address there is no register. -/
theorem reservedAddressesReadZero : Obligations.ReservedAddressesReadZero := by
  intro s a ha
  have hframe := readPort_eq a s
  rw [readAddr_of_reserved s.view ha] at hframe
  exact ⟨readPort a s, exec_rd a s, hframe⟩

end Sys2Proof.Machine
end

section
/-! The encoding (spec 30_encoding.md): the class of a history word and of a queue word as its ordered tests give them,
and the mask and match tables that say the same. -/

namespace Sys2Proof

/-! ## The fields of a history word -/

@[simp] theorem histW_mkHist (w v u : Sample) : histW (mkHist w v u) = w := by revert w v u; decide

@[simp] theorem histV_mkHist (w v u : Sample) : histV (mkHist w v u) = v := by revert w v u; decide

@[simp] theorem histU_mkHist (w v u : Sample) : histU (mkHist w v u) = u := by revert w v u; decide

/-! ## The levels of a sample as bits -/

theorem clockBit_eq (u : Sample) : clockBit u = BitVec.ofBool (u.getLsbD 0) := by revert u; decide

theorem dataBit_eq (u : Sample) : dataBit u = BitVec.ofBool (u.getLsbD 1) := by revert u; decide

theorem ofBool_eq_zero_iff (a : Bool) : BitVec.ofBool a = 0#1 ↔ a = false := by cases a <;> decide

theorem ofBool_eq_one_iff (a : Bool) : BitVec.ofBool a = 1#1 ↔ a = true := by cases a <;> decide

/-- The clock changed (R76's first test). -/
theorem clockBit_xor_eq_one_iff (u v : Sample) :
    clockBit u ^^^ clockBit v = 1#1 ↔ (u.getLsbD 0 ^^ v.getLsbD 0) = true := by
  rw [clockBit_eq, clockBit_eq, BitVec.ofBool_xor_ofBool, ofBool_eq_one_iff]

/-- The gap predicate on the bits of the samples (R76's second test, R103). -/
theorem gap_iff (u v w : Sample) :
    gap u v w = true ↔ (u.getLsbD 0 = false ∧ v.getLsbD 0 = false ∧ w.getLsbD 0 = false) ∧
      (u.getLsbD 1 ^^ v.getLsbD 1) = true ∧ (v.getLsbD 1 ^^ w.getLsbD 1) = true := by
  simp only [gap, Bool.and_eq_true, beq_iff_eq, clockBit_eq, dataBit_eq, ofBool_eq_zero_iff,
    BitVec.ofBool_xor_ofBool, ofBool_eq_one_iff, and_assoc]

/-- The class of the history word of three samples, by the ordered tests of R76 on their bits. -/
theorem classHist_mkHist (w v u : Sample) :
    classHist (mkHist w v u) =
      (if (u.getLsbD 0 ^^ v.getLsbD 0) = true then .clk
       else if (u.getLsbD 0 = false ∧ v.getLsbD 0 = false ∧ w.getLsbD 0 = false) ∧
           (u.getLsbD 1 ^^ v.getLsbD 1) = true ∧ (v.getLsbD 1 ^^ w.getLsbD 1) = true then .gap
       else .data) := by
  simp only [classHist, histW_mkHist, histV_mkHist, histU_mkHist, beq_iff_eq, clockBit_xor_eq_one_iff, gap_iff]

/-! ## The field of a queue word, by shift, by division and by mask -/

theorem fieldOf_toNat (q : QWord) : (fieldOf q).toNat = q.toNat / 2 ^ 18 := by
  rw [fieldOf, BitVec.toNat_ushiftRight, Nat.shiftRight_eq_div_pow]

theorem fieldOf_eq_iff (q f : QWord) : fieldOf q = f ↔ q.toNat / 2 ^ 18 = f.toNat := by
  rw [← BitVec.toNat_inj, fieldOf_toNat]

/-- Masking away the low `k` bits of a word rounds it down to a multiple of `2 ^ k`. -/
theorem toNat_and_allOnes_shiftLeft {n : Nat} (q : BitVec n) (k : Nat) :
    (q &&& (BitVec.allOnes n <<< k)).toNat = q.toNat / 2 ^ k * 2 ^ k := by
  have hle : q.toNat / 2 ^ k * 2 ^ k < 2 ^ n := (Nat.div_mul_le_self _ _).trans_lt q.isLt
  rw [← BitVec.shiftLeft_ushiftRight, BitVec.toNat_shiftLeft, BitVec.toNat_ushiftRight, Nat.shiftRight_eq_div_pow,
    Nat.shiftLeft_eq, Nat.mod_eq_of_lt hle]

/-- A word whose low 18 bits are masked away is the match of row `f` exactly when its field index is `f` (R78). -/
theorem and_fieldMask_eq_iff (q m : QWord) {f : Nat} (hm : m.toNat = f * 2 ^ 18) :
    q &&& 0xFFFC0000#32 = m ↔ q.toNat / 2 ^ 18 = f := by
  have hmask : (0xFFFC0000#32 : QWord) = BitVec.allOnes 32 <<< 18 := by decide
  rw [hmask, ← BitVec.toNat_inj, toNat_and_allOnes_shiftLeft, hm, Nat.mul_left_inj (by decide)]

/-- The guard of DEC.FX, `Q[31:20] != 0`, holds exactly of the field indices above 3 (R78). -/
theorem and_topMask_ne_zero_iff (q : QWord) : q &&& 0xFFF00000#32 ≠ 0#32 ↔ 4 ≤ q.toNat / 2 ^ 18 := by
  have hmask : (0xFFF00000#32 : QWord) = BitVec.allOnes 32 <<< 20 := by decide
  rw [hmask, ne_eq, ← BitVec.toNat_inj, toNat_and_allOnes_shiftLeft, BitVec.toNat_zero]
  omega

/-! ## The operation of a queue word -/

/-- The class of a queue word, by the ordered tests of R78 on its checksum and its field index. -/
theorem classQW_eq (q : QWord) :
    classQW q =
      (if crcOk q = false then .reject
       else if q.toNat / 2 ^ 18 = 0 then .f0
       else if q.toNat / 2 ^ 18 = 1 then .f1
       else if q.toNat / 2 ^ 18 = 2 then .f2
       else if q.toNat / 2 ^ 18 = 3 then .f3
       else .fx) := by
  simp only [classQW, Bool.not_eq_true', beq_iff_eq, fieldOf_eq_iff, BitVec.toNat_ofNat, Nat.reducePow, Nat.reduceMod]

/-- The operation of a queue word, by the same tests. -/
theorem decodeQW_eq (q : QWord) :
    decodeQW q =
      (if crcOk q = false then .decReject q
       else if q.toNat / 2 ^ 18 = 0 then .decF0 q
       else if q.toNat / 2 ^ 18 = 1 then .decF1 q
       else if q.toNat / 2 ^ 18 = 2 then .decF2 q
       else if q.toNat / 2 ^ 18 = 3 then .decF3 q
       else .decFx q) := by
  rw [decodeQW, classQW_eq]
  split_ifs <;> rfl

/-- An accepted word selects one of the five field operations, by its field index. -/
theorem decodeQW_accepted {q : QWord} (h : crcOk q = true) :
    (q.toNat / 2 ^ 18 = 0 ∧ decodeQW q = .decF0 q) ∨
    (q.toNat / 2 ^ 18 = 1 ∧ decodeQW q = .decF1 q) ∨
    (q.toNat / 2 ^ 18 = 2 ∧ decodeQW q = .decF2 q) ∨
    (q.toNat / 2 ^ 18 = 3 ∧ decodeQW q = .decF3 q) ∨
    (4 ≤ q.toNat / 2 ^ 18 ∧ decodeQW q = .decFx q) := by
  rw [decodeQW_eq, h]
  split_ifs <;> simp <;> omega

/-- Settles O3: the ordered tests are `decodeQW_eq`; each row's mask and match is a test of the field index, and the
field index decides the operation of an accepted word. -/
theorem everyQueueWordSelectsOneDecodeClass : Obligations.EveryQueueWordSelectsOneDecodeClass := by
  intro q
  refine ⟨decodeQW_eq q, fun hcrc => ?_⟩
  have row0 := and_fieldMask_eq_iff q 0x00000000#32 (f := 0) (by decide)
  have row1 := and_fieldMask_eq_iff q 0x00040000#32 (f := 1) (by decide)
  have row2 := and_fieldMask_eq_iff q 0x00080000#32 (f := 2) (by decide)
  have row3 := and_fieldMask_eq_iff q 0x000C0000#32 (f := 3) (by decide)
  rw [row0, row1, row2, row3, and_topMask_ne_zero_iff]
  rcases decodeQW_accepted hcrc with ⟨hf, e⟩ | ⟨hf, e⟩ | ⟨hf, e⟩ | ⟨hf, e⟩ | ⟨hf, e⟩ <;> simp [e] <;> omega

/-- Settles O2: the ordered tests are `classHist_mkHist`; the table of rows and the counts are checked on the 64
words. -/
theorem everyHistoryWordSelectsExactlyOneRow : Obligations.EveryHistoryWordSelectsExactlyOneRow := by
  refine ⟨classHist_mkHist, ?rows, ?clk, ?gap, ?data⟩
  case rows => decide
  case clk => decide
  case gap => decide
  case data => decide

end Sys2Proof
end

section
/-! The sampler (spec 40_edge_sampler.md): the class of an edge step from its samples, and what each class leaves in the
sampler's registers. -/

namespace Sys2Proof

/-! ## The class of an edge step from its samples -/

/-- The ordered tests of R76 as the changed clock level and the gap predicate. -/
theorem classHist_of_samples (w v u : Sample) :
    classHist (mkHist w v u) =
      (if u.getLsbD 0 ≠ v.getLsbD 0 then .clk else if gap u v w = true then .gap else .data) := by
  simp only [classHist, histW_mkHist, histV_mkHist, histU_mkHist, beq_iff_eq, clockBit_xor_eq_one_iff, Bool.xor_iff_ne]

/-- A gap keeps the clock level low, so it never meets the test for a changed clock (R76, R103). -/
theorem clock_eq_of_gap {u v w : Sample} (h : gap u v w = true) : u.getLsbD 0 = v.getLsbD 0 := by
  obtain ⟨⟨hu, hv, -⟩, -⟩ := (gap_iff u v w).mp h
  rw [hu, hv]

/-- A step is an EDGE.CLK exactly when the clock level changed (R102). -/
theorem classHist_eq_clk_iff (w v u : Sample) :
    classHist (mkHist w v u) = .clk ↔ u.getLsbD 0 ≠ v.getLsbD 0 := by
  rw [classHist_of_samples]
  split_ifs with hclk
  · exact iff_of_true rfl hclk
  · exact iff_of_false nofun hclk
  · exact iff_of_false nofun hclk

/-- A step is an EDGE.GAP exactly when the gap predicate holds (R104). -/
theorem classHist_eq_gap_iff (w v u : Sample) : classHist (mkHist w v u) = .gap ↔ gap u v w = true := by
  rw [classHist_of_samples]
  split_ifs with hclk hgap
  · exact iff_of_false nofun fun h => hclk (clock_eq_of_gap h)
  · exact iff_of_true rfl hgap
  · exact iff_of_false nofun hgap

/-- A step is an EDGE.DATA exactly when the clock level did not change and the gap predicate is false (R105). -/
theorem classHist_eq_data_iff (w v u : Sample) :
    classHist (mkHist w v u) = .data ↔ u.getLsbD 0 = v.getLsbD 0 ∧ gap u v w = false := by
  rw [classHist_of_samples]
  split_ifs with hclk hgap
  · exact iff_of_false nofun fun h => hclk h.1
  · exact iff_of_false nofun fun h => Bool.false_ne_true (h.2.symm.trans hgap)
  · exact iff_of_true rfl ⟨not_ne_iff.mp hclk, Bool.eq_false_of_not_eq_true hgap⟩

/-- No gap is completed by an event at which the data level did not change. -/
theorem gap_same_new (v w : Sample) : gap v v w = false := by
  simp [← Bool.not_eq_true, gap_iff]

/-- No gap is completed by the event after one at which the data level did not change (R107). -/
theorem gap_same_old (u v : Sample) : gap u v v = false := by
  simp [← Bool.not_eq_true, gap_iff]

end Sys2Proof

namespace Sys2Proof.Machine

/-! ## What each class does with the state -/

theorem dataBit_toNat (u : Sample) : (dataBit u).toNat = (u.getLsbD 1).toNat := by
  rw [dataBit_eq, BitVec.toNat_ofBool]

/-- The saturating increment as R102 says it. -/
theorem cntIncr_eq_ite (c : BitVec 5) : cntIncr c = if c = 31#5 then 31#5 else c + 1#5 := by
  unfold cntIncr
  by_cases hc : c = 31#5 <;> simp [hc, Config.cntMax]

/-- EDGE.CLK folds the data level, counts and shifts the history; nothing else changes (R102, R106). -/
theorem edgeClk_eq (u : Sample) (s : State) :
    edgeClk u s =
      { s with acc := BitVec.ofNat 20 (2 * s.acc.toNat + (u.getLsbD 1).toNat), cnt := cntIncr s.cnt,
               w := s.v, v := u } := by
  rw [← dataBit_toNat, ← accShift_eq]
  rfl

/-- A boundary leaves the transition history to the shift. -/
@[simp] theorem closeFrame_v (s : State) : (closeFrame s).v = s.v := by
  rcases closeFrame_eq s with ⟨-, -, e⟩ | ⟨-, -, e⟩ | ⟨-, e⟩ <;> rw [e]

/-- A changed clock level makes the step an EDGE.CLK with its sample. -/
theorem exec_edgeOp_of_clock_ne {u : Sample} {s : State} (h : u.getLsbD 0 ≠ s.v.getLsbD 0) :
    exec (edgeOp u s) s = .next (edgeClk u s) := by
  have hc := (classHist_eq_clk_iff s.w s.v u).mpr h
  rcases exec_edgeOp u s with ⟨-, e⟩ | ⟨hgap, -⟩ | ⟨hdata, -⟩
  · exact e
  · simp [hc] at hgap
  · simp [hc] at hdata

/-- With the clock level unchanged and no gap, the step is an EDGE.DATA with its sample. -/
theorem exec_edgeOp_of_no_gap {u : Sample} {s : State} (h : u.getLsbD 0 = s.v.getLsbD 0)
    (hgap : gap u s.v s.w = false) : exec (edgeOp u s) s = .next (edgeData u s) := by
  have hd := (classHist_eq_data_iff s.w s.v u).mpr ⟨h, hgap⟩
  rcases exec_edgeOp u s with ⟨hclk, -⟩ | ⟨hgap, -⟩ | ⟨-, e⟩
  · simp [hd] at hclk
  · simp [hd] at hgap
  · exact e

/-- Both lines changed: the clock level in particular. -/
theorem clock_ne_of_xor_eq_three {u v : Sample} (h : u ^^^ v = 0b11#2) : u.getLsbD 0 ≠ v.getLsbD 0 := by
  have hbit : (u ^^^ v).getLsbD 0 = true := by rw [h]; rfl
  rwa [BitVec.getLsbD_xor, ← Bool.bne_eq_xor, bne_iff_ne] at hbit

/-! ## The statements -/

/-- Settles O11: the class by `classHist_eq_clk_iff`, the state by `edgeClk_eq`. -/
theorem everyClockChangeFoldsTheDataLevel : Obligations.EveryClockChangeFoldsTheDataLevel := by
  intro s u
  refine ⟨classHist_eq_clk_iff s.w s.v u, fun h => ?_⟩
  rw [exec_edgeOp_of_clock_ne h, edgeClk_eq, cntIncr_eq_ite]

/-- Settles O12: the class by `classHist_eq_data_iff`; EDGE.DATA only shifts the history. -/
theorem everyDataOnlyEdgeLeavesTheAccumulator : Obligations.EveryDataOnlyEdgeLeavesTheAccumulator :=
  fun s u => ⟨classHist_eq_data_iff s.w s.v u, exec_edgeOp_of_no_gap⟩

/-- Settles O16: each class ends with the history shift, and neither the fold nor the boundary touches `v` before it. -/
theorem everyEdgeStepShiftsTheHistory : Obligations.EveryEdgeStepShiftsTheHistory := by
  intro s u
  rcases exec_edgeOp u s with ⟨-, hclk⟩ | ⟨-, hgap⟩ | ⟨-, hdata⟩
  · exact ⟨edgeClk u s, hclk, by simp [edgeClk]⟩
  · exact ⟨edgeGap u s, hgap, by simp [edgeGap]⟩
  · exact ⟨edgeData u s, hdata, by simp [edgeData]⟩

/-- Settles O17: a change of both lines is a change of the clock, so the step folds the new data level. -/
theorem bothLinesChangedFoldsTheNewLevel : Obligations.BothLinesChangedFoldsTheNewLevel := by
  intro s u h
  have hne := clock_ne_of_xor_eq_three h
  refine ⟨(classHist_eq_clk_iff s.w s.v u).mpr hne, ?_⟩
  rw [exec_edgeOp_of_clock_ne hne, edgeClk_eq, cntIncr_eq]

/-- Settles O18: the step is no gap because the data level did not change on it, and the next one is no gap because it
did not change on the event before. -/
theorem noChangeEventSuppressesTheNextGap : Obligations.NoChangeEventSuppressesTheNextGap := by
  intro s
  have hgap := gap_same_new s.v s.w
  refine ⟨edgeData s.v s, (classHist_eq_data_iff s.w s.v s.v).mpr ⟨rfl, hgap⟩, exec_edgeOp_of_no_gap rfl hgap, rfl,
    fun u hnext => ?_⟩
  have hnext : gap u s.v s.v = true := (classHist_eq_gap_iff s.v s.v u).mp hnext
  simp [gap_same_old] at hnext

end Sys2Proof.Machine
end

section
/-! The frame queue (spec 41_frame_queue.md): what ENQ answers and leaves in the FIFO by the room S sees, over any order
of ENQs and PUBLISHes, and what reset does to the FIFO. -/

namespace Sys2Proof.Machine

/-! ## The empty FIFO, and reset -/

theorem contents_eq_nil_iff (s : State) : s.contents = [] ↔ s.qVis = [] ∧ s.qPend = [] := List.append_eq_nil_iff

theorem contents_eq_nil_of_occ {s : State} (h : s.occ = 0) : s.contents = [] := by
  obtain ⟨⟨hvis, hpend⟩, -⟩ : (s.qVis = [] ∧ s.qPend = []) ∧ s.nFreePend = 0 := by simpa [State.occ] using h
  exact (contents_eq_nil_iff s).mpr ⟨hvis, hpend⟩

theorem exec_rst (s : State) : exec .rst s = .next (observe .reset (resetBlock s)) := rfl

/-- Settles O49: the reset values of the FIFO's three fields, and with no word visible or pending none is stored. -/
theorem resetEmptiesTheFifo : Obligations.ResetEmptiesTheFifo := fun s =>
  ⟨observe .reset (resetBlock s), exec_rst s, rfl, rfl, rfl, (contents_eq_nil_iff _).mpr ⟨rfl, rfl⟩⟩

/-! ## ENQ and sequences of ENQs and PUBLISHes -/

theorem fifoEnq_of_room {s : State} (q : QWord) (h : s.occ < 10) :
    (fifoEnq q s).1 = .ok ∧ (fifoEnq q s).2.occ = s.occ + 1 ∧ (fifoEnq q s).2.contents = s.contents ++ [q] := by
  rcases fifoEnq_eq q s with ⟨-, e⟩ | ⟨hfull, -⟩
  · rw [e]
    refine ⟨rfl, ?_, ?_⟩
    · simp [State.occ]; omega
    · simp [State.contents]
  · omega

theorem fifoEnq_of_full {s : State} (q : QWord) (h : 10 ≤ s.occ) : fifoEnq q s = (.full, s) := by
  rcases fifoEnq_eq q s with ⟨hroom, -⟩ | ⟨-, e⟩
  · omega
  · exact e

theorem enqRun_publish (es : List (Option QWord)) (s : State) :
    enqRun (none :: es) s = enqRun es (fifoPublish s) := rfl

theorem enqRun_enq (q : QWord) (es : List (Option QWord)) (s : State) :
    enqRun (some q :: es) s =
      ((fifoEnq q s).1 :: (enqRun es (fifoEnq q s).2).1, (enqRun es (fifoEnq q s).2).2) := rfl

/-- From any state the room S sees, `10 - occ_S`, says how many of the ENQs succeed: the first ones, whose words the FIFO
then holds after its own. PUBLISH changes neither the room nor the contents. -/
theorem enqRun_fills_the_room (es : List (Option QWord)) (s : State) :
    (enqRun es s).1 = List.replicate (min (es.filterMap id).length (10 - s.occ)) .ok
        ++ List.replicate ((es.filterMap id).length - (10 - s.occ)) .full ∧
      (enqRun es s).2.contents = s.contents ++ (es.filterMap id).take (10 - s.occ) := by
  induction es generalizing s with
  | nil => simp [enqRun]
  | cons e es ih =>
    cases e with
    | none => simpa [enqRun_publish] using ih (fifoPublish s)
    | some q =>
      by_cases hroom : s.occ < 10
      · obtain ⟨hok, hocc, hcontents⟩ := fifoEnq_of_room q hroom
        have hone : 10 - s.occ = 10 - (s.occ + 1) + 1 := by omega
        have hrest := ih (fifoEnq q s).2
        rw [hocc, hcontents] at hrest
        simp [enqRun_enq, hok, hrest, hone, List.replicate_succ]
      · have hnone : 10 - s.occ = 0 := by omega
        have hrest := ih s
        rw [hnone] at hrest
        simp [enqRun_enq, fifoEnq_of_full q (Nat.le_of_not_lt hroom), hnone, hrest, List.replicate_succ]

/-- Within the room S sees, repeated ENQs of a word join the pending ones and change nothing else but the history. -/
theorem enqRun_replicate (q : QWord) {n : Nat} {s : State} (h : s.occ + n ≤ 10) :
    (enqRun (List.replicate n (some q)) s).2 =
      { s with qPend := s.qPend ++ List.replicate n q, history := List.replicate n (.enqueued q) ++ s.history } := by
  induction n generalizing s with
  | zero => simp [enqRun]
  | succ n ih =>
    rcases fifoEnq_eq q s with ⟨hroom, e⟩ | ⟨hfull, -⟩
    · obtain ⟨-, hocc, -⟩ := fifoEnq_of_room q hroom
      rw [List.replicate_succ, enqRun_enq, ih (by omega), e]
      simp [List.replicate_succ (a := q), List.replicate_succ' (a := Obs.enqueued q)]
    · omega

/-! ## FULL before ten words are stored -/

/-- A block at its reset values but for the FIFO and the history meets the invariant if those two do. -/
theorem inv_of_reset_but_fifo {vis pend : List QWord} {freed : Nat} {hist : List Obs}
    (hocc : vis.length + pend.length + freed ≤ 10) (hwords : ∀ q ∈ vis ++ pend, topBitsZero q = true)
    (hlog : acceptedWords hist = dequeuedWords hist ++ (vis ++ pend)) :
    State.Inv { State.reset with qVis := vis, qPend := pend, nFreePend := freed, history := hist } where
  occ := hocc
  words := hwords
  accBits := fun _ => by simp [State.reset]
  pending := fun _ h => nomatch h
  regsDirs := by simp [RegFile.dirsLegal, State.reset, RegFile.reset]
  viewDirs := by simp [RegFile.dirsLegal, State.reset, RegFile.reset]
  regsUnset := fun r _ => by cases r <;> rfl
  viewUnset := fun r _ => by cases r <;> rfl
  viewInit := BitVec.and_self
  viewSync := ⟨rfl, fun _ => rfl⟩
  unseenOk := trivial
  held := fun h => nomatch h
  logged := hlog
  rdBits := by simp [State.reset]

/-- After reset S enqueues ten words, Y publishes one, and D dequeues it (its check fails, so D is idle again); Y has not
handed the freed slot back to S. -/
def slotNotReleased : State :=
  dequeueStep (fifoPublish (enqRun (List.replicate 10 (some 0x00000FC2#32)) State.reset).2)

theorem slotNotReleased_eq :
    slotNotReleased =
      { State.reset with
        qVis := [], qPend := List.replicate 9 0x00000FC2#32, nFreePend := 1
        history := .discCrc 0x00000FC2#32 :: .dequeued 0x00000FC2#32 ::
          List.replicate 10 (.enqueued 0x00000FC2#32) } := by
  have hreject : classQW 0x00000FC2#32 = .reject := by decide
  rw [slotNotReleased, enqRun_replicate _ (by decide), fifoPublish_cons rfl, dequeueStep_cons rfl rfl]
  simp only [beginDecode, hreject]
  rfl

theorem slotNotReleased_inv : slotNotReleased.Inv := by
  rw [slotNotReleased_eq]
  exact inv_of_reset_but_fifo (by decide) (by simp [topBitsZero]) (by decide)

/-- Settles O29: an empty view has room for ten, and nothing is stored before them; `slotNotReleased` stores nine words
while S sees ten. -/
theorem tenEnqueuesSucceedThenEveryOneIsFull : Obligations.TenEnqueuesSucceedThenEveryOneIsFull := by
  refine ⟨fun s es hempty => ?_, slotNotReleased, 0x00000285#32, slotNotReleased_inv, ?_, ?_⟩
  · have hnil := contents_eq_nil_of_occ hempty
    simpa [hempty, hnil] using enqRun_fills_the_room es s
  · rw [slotNotReleased_eq]; decide
  · rw [fifoEnq_of_full _ (by rw [slotNotReleased_eq]; decide)]

end Sys2Proof.Machine
end

section
/-! The frame decoder (spec 42_frame_decoder.md): the checksum as the formula on numbers, the direction registers after
DEC.F2, and the registers a decode of one field leaves alone. -/

namespace Sys2Proof

/-! ## The checksum as numbers -/

/-- The fold of R151; no shifted term leaves the 32 bits. -/
theorem crcFold_toNat (q : QWord) :
    (crcFold q).toNat = (q.toNat ^^^ (q.toNat / 2 ^ 7)) ^^^ (q.toNat / 2 ^ 14) := by
  simp only [crcFold, BitVec.toNat_xor, BitVec.toNat_ushiftRight, Nat.shiftRight_eq_div_pow]

/-- The mask `0x1c` keeps whole nibbles, at most seven of them, so the shift of R152 never reaches the word's width. -/
theorem shiftCount_bounds (c : Nat) : ((c >>> 2) &&& 0x1c) % 4 = 0 ∧ ((c >>> 2) &&& 0x1c) ≤ 28 := by
  refine ⟨?_, Nat.and_le_right⟩
  have hmod : ((c >>> 2) &&& 0x1c) % 2 ^ 2 = (c >>> 2) % 2 ^ 2 &&& 0x1c % 2 ^ 2 := Nat.and_mod_two_pow
  simpa using hmod

/-- The accept test of R152: a queue word passes when the low nibble of the number is 0. -/
theorem crcOk_iff_toNat (q : QWord) :
    crcOk q = true ↔
      ((crcFold q).toNat ^^^ (0x25cb9e70 >>> (((crcFold q).toNat >>> 2) &&& 0x1c))) &&& 0xF = 0 := by
  simp only [crcOk, beq_iff_eq, ← BitVec.toNat_inj, BitVec.toNat_and, BitVec.toNat_xor, BitVec.toNat_ushiftRight]
  rfl

/-- Settles O6: the fold, the shift count and the accept test, each as numbers. -/
theorem acceptTestIsTheNormativeFormula : Obligations.AcceptTestIsTheNormativeFormula :=
  fun q => ⟨crcFold_toNat q, shiftCount_bounds (crcFold q).toNat, crcOk_iff_toNat q⟩

end Sys2Proof

namespace Sys2Proof.Machine

/-! ## The direction registers -/

theorem payloadBit_eq_ofBool (q : QWord) (i : Nat) : payloadBit q i = BitVec.ofBool ((payload q).getLsbD i) := by
  rw [payloadBit_eq, payload, BitVec.getLsbD_ushiftRight, Nat.add_comm]

/-- The difference of two bits by the table of R164. -/
theorem bitDiff_table (a b : Bool) :
    (a = b → bitDiff (BitVec.ofBool a) (BitVec.ofBool b) = 0b00#2) ∧
    (a = true → b = false → bitDiff (BitVec.ofBool a) (BitVec.ofBool b) = 0b01#2) ∧
    (a = false → b = true → bitDiff (BitVec.ofBool a) (BitVec.ofBool b) = 0b11#2) := by
  revert a b; decide

theorem exec_decF2 (q : QWord) (s : State) : exec (.decF2 q) s = .next (finishDecode (writesF2 q) s) := rfl

/-- The register file after the writes of `W(2)` (R159). -/
theorem foldl_apply_writesF2 (q : QWord) (f : RegFile) :
    (writesF2 q).foldl RegFile.apply f =
      { f with init := initUpdate f.init 2#2, thr := payloadHigh q
               hatx := bitDiff (payloadBit q 1) (payloadBit q 0), haty := bitDiff (payloadBit q 2) (payloadBit q 3)
               dpadx := bitDiff (payloadBit q 5) (payloadBit q 4)
               dpady := bitDiff (payloadBit q 6) (payloadBit q 7) } := rfl

/-- Settles O37: DEC.F2 writes the difference of each pair (R159), and the difference is that of the two bits as
integers and by the table. -/
theorem directionRegistersHoldTheDifferenceOfTheirBits :
    Obligations.DirectionRegistersHoldTheDifferenceOfTheirBits := by
  intro s q
  refine ⟨finishDecode (writesF2 q) s, exec_decF2 q s, fun d a b hpair => ?_⟩
  have hd : d = bitDiff (BitVec.ofBool ((payload q).getLsbD a)) (BitVec.ofBool ((payload q).getLsbD b)) := by
    simp only [finishDecode_eq, foldl_apply_writesF2, Prod.mk.injEq] at hpair
    rw [← payloadBit_eq_ofBool, ← payloadBit_eq_ofBool]
    rcases hpair with ⟨rfl, rfl, rfl⟩ | ⟨rfl, rfl, rfl⟩ | ⟨rfl, rfl, rfl⟩ | ⟨rfl, rfl, rfl⟩ <;> rfl
  rw [hd]
  exact ⟨bitDiff_toInt _ _, bitDiff_table _ _⟩

/-! ## The registers of the other fields -/

/-- `f'` is `f` in every register that a field other than `n` owns and in every bit of INIT but bit `n` (R163). -/
def RegFile.SameOffField (n : BitVec 2) (f f' : RegFile) : Prop :=
  (∀ r : RegName, r ≠ .init → r.field ≠ some n → f'.read r = f.read r) ∧
  (∀ g : BitVec 2, g ≠ n → f'.init.getLsbD g.toNat = f.init.getLsbD g.toNat)

theorem RegFile.SameOffField.refl (n : BitVec 2) (f : RegFile) : f.SameOffField n f :=
  ⟨fun _ _ _ => rfl, fun _ _ => rfl⟩

theorem RegFile.SameOffField.trans {n : BitVec 2} {f f' f'' : RegFile} (h : f.SameOffField n f')
    (h' : f'.SameOffField n f'') : f.SameOffField n f'' :=
  ⟨fun r hr hf => (h'.1 r hr hf).trans (h.1 r hr hf), fun g hg => (h'.2 g hg).trans (h.2 g hg)⟩

/-- Setting one bit of INIT leaves the others as they are (R156). -/
theorem getLsbD_initUpdate_ne (m : BitVec 4) {n g : BitVec 2} (h : g ≠ n) :
    (initUpdate m n).getLsbD g.toNat = m.getLsbD g.toNat := by
  revert m n g; decide

/-- A write of field `n` writes INIT or a register that `n` owns, and of INIT the bit `n` only. -/
theorem sameOffField_apply {n : BitVec 2} {k : RegWrite} (hk : k.ofField n) (f : RegFile) :
    f.SameOffField n (f.apply k) := by
  rcases hk with rfl | hfield
  case inl =>
    exact ⟨fun r hr _ => read_apply_ne (Ne.symm hr) f, fun g hg => getLsbD_initUpdate_ne f.init hg⟩
  case inr =>
    have hinit : k.reg ≠ .init := fun e => by simp [e, RegName.field] at hfield
    refine ⟨fun r _ hr => read_apply_ne (fun e : k.reg = r => hr (e ▸ hfield)) f, fun g _ => ?_⟩
    rw [init_apply_ne hinit]

theorem sameOffField_foldl {n : BitVec 2} {ks : List RegWrite} (h : ∀ k ∈ ks, k.ofField n) (f : RegFile) :
    f.SameOffField n (ks.foldl RegFile.apply f) := by
  induction ks generalizing f with
  | nil => exact .refl n f
  | cons k ks ih =>
    obtain ⟨hk, hks⟩ := List.forall_mem_cons.mp h
    exact (sameOffField_apply hk f).trans (ih hks (f.apply k))

/-- With every pending write of field `n`, D's write step stays off the other fields: it performs one of those writes or
none. -/
theorem sameOffField_writeStep {s : State} {ks : List RegWrite} {n : BitVec 2} (hp : s.phase = .writing ks)
    (h : ∀ k ∈ ks, k.ofField n) (r : RegName) : s.regs.SameOffField n (writeStep r s).regs := by
  rcases writeStep_cases r s with hwait | ⟨ks', k, hp', hk, -, -, hwrite⟩
  · rw [hwait]
    exact .refl n s.regs
  · obtain rfl : ks = ks' := Phase.writing.inj (hp.symm.trans hp')
    rw [hwrite]
    exact sameOffField_apply (h k hk) s.regs

/-! ## The writes of a word are of its field -/

/-- The writes of a word, by its field index (R155, R162); a rejected word has none. -/
theorem writesOf_by_field (q : QWord) :
    writesOf q = [] ∨
    (q.toNat / 2 ^ 18 = 0 ∧ writesOf q = writesF0 q) ∨
    (q.toNat / 2 ^ 18 = 1 ∧ writesOf q = writesF1 q) ∨
    (q.toNat / 2 ^ 18 = 2 ∧ writesOf q = writesF2 q) ∨
    (q.toNat / 2 ^ 18 = 3 ∧ writesOf q = writesF3 q) := by
  rw [writesOf, classQW_eq]
  split_ifs with hcrc h0 h1 h2 h3
  · exact .inl rfl
  · exact .inr (.inl ⟨h0, rfl⟩)
  · exact .inr (.inr (.inl ⟨h1, rfl⟩))
  · exact .inr (.inr (.inr (.inl ⟨h2, rfl⟩)))
  · exact .inr (.inr (.inr (.inr ⟨h3, rfl⟩)))
  · exact .inl rfl

theorem writesF0_ofField (q : QWord) : ∀ k ∈ writesF0 q, k.ofField 0#2 := by
  simp [writesF0, RegWrite.ofField, RegWrite.reg, RegName.field]

theorem writesF1_ofField (q : QWord) : ∀ k ∈ writesF1 q, k.ofField 1#2 := by
  simp [writesF1, RegWrite.ofField, RegWrite.reg, RegName.field]

theorem writesF2_ofField (q : QWord) : ∀ k ∈ writesF2 q, k.ofField 2#2 := by
  simp [writesF2, RegWrite.ofField, RegWrite.reg, RegName.field]

theorem writesF3_ofField (q : QWord) : ∀ k ∈ writesF3 q, k.ofField 3#2 := by
  simp [writesF3, RegWrite.ofField, RegWrite.reg, RegName.field]

theorem writesOf_ofField {q : QWord} {n : BitVec 2} (h : q.toNat / 2 ^ 18 = n.toNat) :
    ∀ k ∈ writesOf q, k.ofField n := by
  have field_eq {m : BitVec 2} (hm : q.toNat / 2 ^ 18 = m.toNat) : n = m :=
    BitVec.eq_of_toNat_eq (h.symm.trans hm)
  rcases writesOf_by_field q with e | ⟨hf, e⟩ | ⟨hf, e⟩ | ⟨hf, e⟩ | ⟨hf, e⟩ <;> rw [e]
  · exact nofun
  · exact field_eq (m := 0#2) hf ▸ writesF0_ofField q
  · exact field_eq (m := 1#2) hf ▸ writesF1_ofField q
  · exact field_eq (m := 2#2) hf ▸ writesF2_ofField q
  · exact field_eq (m := 3#2) hf ▸ writesF3_ofField q

/-- The whole decode of a word of field index `n` stays off the other fields; a rejected word writes no register. -/
theorem exec_decodeQW_sameOffField {q : QWord} {n : BitVec 2} (h : q.toNat / 2 ^ 18 = n.toNat) (s : State) :
    ∃ t : State, exec (decodeQW q) s = .next t ∧ s.regs.SameOffField n t.regs := by
  rcases exec_decodeQW q s with ⟨-, -, e⟩ | ⟨-, -, e⟩ | ⟨-, -, e⟩
  · exact ⟨_, e, .refl n s.regs⟩
  · exact ⟨_, e, .refl n s.regs⟩
  · refine ⟨_, e, ?_⟩
    rw [finishDecode_eq]
    exact sameOffField_foldl (writesOf_ofField h) s.regs

/-- Settles O38: every write of a word is of the word's field, and a write of a field leaves the others' registers and
bits of INIT; a whole decode is a list of such writes, a step of D at most one of them. -/
theorem decodesNeverTouchAnotherField : Obligations.DecodesNeverTouchAnotherField :=
  ⟨fun s _ _ h => exec_decodeQW_sameOffField h s, fun _ _ _ r hp h => sameOffField_writeStep hp h r,
    fun _ _ h => writesOf_ofField h⟩

end Sys2Proof.Machine
end

section
/-! The encoding in bytes (spec 30_encoding.md section 1): the decoder and the encoder are inverse, for each format. -/

namespace Sys2Proof

/-! ## Each format's bytes -/

/-- The byte of a history word reads back as the word; its two upper bits are 0. -/
theorem decode_histBytes (h : HistWord) : decode .hist (histBytes h) = .instr (decodeHist h) := by
  have hword : (0#2 ++ h : Byte).extractLsb' 6 2 = 0#2 ∧ (0#2 ++ h : Byte).extractLsb' 0 6 = h := by
    revert h; decide
  simp only [decode, histBytes, hword, beq_self_eq_true, if_true]

/-- The byte of a read address reads back as the address; its four upper bits are 0. -/
theorem decode_rdaBytes (a : RdAddr) : decode .rda (rdaBytes a) = .instr (.rd a) := by
  have hword : (0#4 ++ a : Byte).extractLsb' 4 4 = 0#4 ∧ (0#4 ++ a : Byte).extractLsb' 0 4 = a := by
    revert a; decide
  simp only [decode, rdaBytes, hword, beq_self_eq_true, if_true]

/-- A queue word from its four bytes, as a number (R53). -/
theorem qwordOfBytes_toNat (b0 b1 b2 b3 : Byte) :
    (qwordOfBytes b0 b1 b2 b3).toNat = b3.toNat * 2 ^ 24 + b2.toNat * 2 ^ 16 + b1.toNat * 2 ^ 8 + b0.toNat := by
  have append_toNat {n : Nat} (x : BitVec n) (b : Byte) : (x ++ b).toNat = x.toNat * 2 ^ 8 + b.toNat := by
    rw [BitVec.toNat_append, ← Nat.shiftLeft_add_eq_or_of_lt b.isLt, Nat.shiftLeft_eq]
  calc (qwordOfBytes b0 b1 b2 b3).toNat
      = ((b3.toNat * 2 ^ 8 + b2.toNat) * 2 ^ 8 + b1.toNat) * 2 ^ 8 + b0.toNat := by
        rw [← append_toNat, ← append_toNat, ← append_toNat]; rfl
    _ = _ := by omega

/-- Byte `k` of a queue word, as a number. -/
theorem qwordByte_toNat (q : QWord) (k : Nat) : (qwordByte q k).toNat = q.toNat / 2 ^ (8 * k) % 2 ^ 8 := by
  rw [qwordByte, BitVec.extractLsb'_toNat, Nat.shiftRight_eq_div_pow]

/-- The four stored bytes of a queue word make the word again. -/
theorem qwordOfBytes_qwordByte (q : QWord) :
    qwordOfBytes (qwordByte q 0) (qwordByte q 1) (qwordByte q 2) (qwordByte q 3) = q := by
  apply BitVec.eq_of_toNat_eq
  simp only [qwordOfBytes_toNat, qwordByte_toNat]
  omega

/-- And the bytes of a word made of four bytes are those four. -/
theorem qwordBytes_qwordOfBytes (b0 b1 b2 b3 : Byte) : qwordBytes (qwordOfBytes b0 b1 b2 b3) = [b0, b1, b2, b3] := by
  have h0 := b0.isLt
  have h1 := b1.isLt
  have h2 := b2.isLt
  simp only [qwordBytes, List.cons.injEq, and_true, ← BitVec.toNat_inj, qwordByte_toNat, qwordOfBytes_toNat]
  omega

theorem decode_qwordBytes (q : QWord) : decode .qw (qwordBytes q) = .instr (decodeQW q) := by
  simp only [decode, qwordBytes, qwordOfBytes_qwordByte]

/-! ## The bytes a format reads are the bytes it writes -/

theorem histBytes_of_upper_zero {b : Byte} (h : b.extractLsb' 6 2 = 0#2) : histBytes (b.extractLsb' 0 6) = [b] := by
  revert b; decide

theorem rdaBytes_of_upper_zero {b : Byte} (h : b.extractLsb' 4 4 = 0#4) : rdaBytes (b.extractLsb' 0 4) = [b] := by
  revert b; decide

/-! ## The rows of each agent -/

/-- Each row of R76 with its operands writes a history word that selects that row with those operands. -/
theorem decodeHist_encodeHist {i : Instr} {h : HistWord} (he : encodeHist i = some h) : decodeHist h = i := by
  cases i <;> simp only [encodeHist, Option.some.injEq, reduceCtorEq] at he <;> subst he
  case edgeClkRise w vd ud => revert w vd ud; decide
  case edgeClkFall w vd ud => revert w vd ud; decide
  case edgeDataHigh w vd ud => revert w vd ud; decide
  case edgeDataWHigh wd vd ud => revert wd vd ud; decide
  case edgeDataStay0 wd => revert wd; decide
  case edgeDataStay1 wd => revert wd; decide
  all_goals rfl

theorem encodeHist_decodeHist (h : HistWord) : encodeHist (decodeHist h) = some h := by
  revert h; decide

theorem wellFormed_decodeHist (h : HistWord) : wellFormed (decodeHist h) = true := by
  revert h; decide

/-! ## The rows of the decoder -/

theorem fieldRowMatches_iff (q m : QWord) {f : Nat} (hm : m.toNat = f * 2 ^ 18) :
    fieldRowMatches q m = true ↔ q.toNat / 2 ^ 18 = f := by
  rw [fieldRowMatches, beq_iff_eq, and_fieldMask_eq_iff q m hm]

theorem topBitsZero_iff (q : QWord) : topBitsZero q = true ↔ q.toNat / 2 ^ 18 < 4 := by
  have hnum := and_topMask_ne_zero_iff q
  rw [ne_eq, ← not_lt, not_iff_not] at hnum
  rw [topBitsZero, beq_iff_eq, hnum]

/-- A well-formed decode operation is the one its word selects: its row's guard, mask and match decide the class. -/
theorem decodeQW_encodeQW {i : Instr} {q : QWord} (hw : wellFormed i = true) (he : encodeQW i = some q) :
    decodeQW q = i := by
  cases i <;> simp only [encodeQW, Option.some.injEq, reduceCtorEq] at he <;> subst he <;>
    simp only [wellFormed, Bool.and_eq_true, Bool.not_eq_true'] at hw <;> rw [decodeQW_eq]
  case decReject q => rw [if_pos hw]
  case decF0 q => rw [hw.1, (fieldRowMatches_iff q _ (f := 0) (by decide)).mp hw.2]; rfl
  case decF1 q => rw [hw.1, (fieldRowMatches_iff q _ (f := 1) (by decide)).mp hw.2]; rfl
  case decF2 q => rw [hw.1, (fieldRowMatches_iff q _ (f := 2) (by decide)).mp hw.2]; rfl
  case decF3 q => rw [hw.1, (fieldRowMatches_iff q _ (f := 3) (by decide)).mp hw.2]; rfl
  case decFx q =>
    have hf : ¬ q.toNat / 2 ^ 18 < 4 := fun hlt => by simp [(topBitsZero_iff q).mpr hlt] at hw
    rw [if_neg (by simp [hw.1]), if_neg (by omega), if_neg (by omega), if_neg (by omega), if_neg (by omega)]

/-- The operation a queue word selects is well formed and keeps the word. -/
theorem wellFormed_decodeQW (q : QWord) : encodeQW (decodeQW q) = some q ∧ wellFormed (decodeQW q) = true := by
  cases hcrc : crcOk q with
  | false => simp [decodeQW_eq, hcrc, encodeQW, wellFormed]
  | true =>
    rcases decodeQW_accepted hcrc with ⟨hf, e⟩ | ⟨hf, e⟩ | ⟨hf, e⟩ | ⟨hf, e⟩ | ⟨hf, e⟩ <;> rw [e] <;>
      refine ⟨rfl, ?_⟩ <;> rw [wellFormed, hcrc, Bool.true_and]
    · exact (fieldRowMatches_iff q _ (by decide)).mpr hf
    · exact (fieldRowMatches_iff q _ (by decide)).mpr hf
    · exact (fieldRowMatches_iff q _ (by decide)).mpr hf
    · exact (fieldRowMatches_iff q _ (by decide)).mpr hf
    · rw [Bool.not_eq_true', ← Bool.not_eq_true, topBitsZero_iff]; omega

/-- An operation with a history word writes no queue word. -/
theorem encodeQW_of_encodeHist {i : Instr} {h : HistWord} (he : encodeHist i = some h) : encodeQW i = none := by
  cases i <;> simp only [encodeHist, encodeQW, reduceCtorEq] at he ⊢

/-! ## Encode and decode -/

theorem encode_hist {i : Instr} {h : HistWord} (he : encodeHist i = some h) :
    encode i = some (.hist, histBytes h) := by
  simp [encode, he]

theorem encode_qw {i : Instr} {q : QWord} (he : encodeQW i = some q) : encode i = some (.qw, qwordBytes q) := by
  cases hh : encodeHist i with
  | none => simp [encode, hh, he]
  | some h => simp [encodeQW_of_encodeHist hh] at he

/-- An encoded instruction is an edge operation, a decode operation or a read. -/
theorem encode_cases {i : Instr} {f : Format} {bs : List Byte} (he : encode i = some (f, bs)) :
    (∃ h, encodeHist i = some h ∧ f = .hist ∧ bs = histBytes h) ∨
    (∃ q, encodeQW i = some q ∧ f = .qw ∧ bs = qwordBytes q) ∨
    (∃ a, i = .rd a ∧ f = .rda ∧ bs = rdaBytes a) := by
  cases hh : encodeHist i with
  | some h =>
    cases (encode_hist hh).symm.trans he
    exact .inl ⟨h, rfl, rfl, rfl⟩
  | none =>
    cases hq : encodeQW i with
    | some q =>
      cases (encode_qw hq).symm.trans he
      exact .inr (.inl ⟨q, rfl, rfl, rfl⟩)
    | none =>
      cases i with
      | rd a =>
        cases he
        exact .inr (.inr ⟨a, rfl, rfl, rfl⟩)
      | _ => simp [encode, encodeHist, encodeQW] at hh hq he

/-- The bytes the decoder reads as an instruction are those of a history word, a queue word or a read address. -/
theorem decode_cases {f : Format} {bs : List Byte} {i : Instr} (hd : decode f bs = .instr i) :
    (∃ h, f = .hist ∧ bs = histBytes h ∧ i = decodeHist h) ∨
    (∃ q, f = .qw ∧ bs = qwordBytes q ∧ i = decodeQW q) ∨
    (∃ a, f = .rda ∧ bs = rdaBytes a ∧ i = .rd a) := by
  unfold decode at hd
  split at hd
  case h_1 b =>
    split at hd
    case isTrue hz =>
      cases hd
      exact .inl ⟨_, rfl, (histBytes_of_upper_zero (by simpa using hz)).symm, rfl⟩
    case isFalse => cases hd
  case h_2 b0 b1 b2 b3 =>
    cases hd
    exact .inr (.inl ⟨_, rfl, (qwordBytes_qwordOfBytes b0 b1 b2 b3).symm, rfl⟩)
  case h_3 b =>
    split at hd
    case isTrue hz =>
      cases hd
      exact .inr (.inr ⟨_, rfl, (rdaBytes_of_upper_zero (by simpa using hz)).symm, rfl⟩)
    case isFalse => cases hd
  case h_4 => cases hd

/-- Settles O4: the bytes of each format read back as their word, and the word selects the row that wrote it. -/
theorem decodeOfEncodeIsTheInstruction : Obligations.DecodeOfEncodeIsTheInstruction := by
  intro i f bs hw he
  rcases encode_cases he with ⟨h, hh, rfl, rfl⟩ | ⟨q, hq, rfl, rfl⟩ | ⟨a, rfl, rfl, rfl⟩
  · rw [decode_histBytes, decodeHist_encodeHist hh]
  · rw [decode_qwordBytes, decodeQW_encodeQW hw hq]
  · exact decode_rdaBytes a

/-- Settles O5: bytes that decode are a format's bytes of one word, and the operation the word selects is well formed
and writes that word. -/
theorem encodeOfDecodeIsTheBytes : Obligations.EncodeOfDecodeIsTheBytes := by
  intro f bs i hd
  rcases decode_cases hd with ⟨h, rfl, rfl, rfl⟩ | ⟨q, rfl, rfl, rfl⟩ | ⟨a, rfl, rfl, rfl⟩
  · exact ⟨encode_hist (encodeHist_decodeHist h), wellFormed_decodeHist h⟩
  · exact ⟨encode_qw (wellFormed_decodeQW q).1, (wellFormed_decodeQW q).2⟩
  · exact ⟨rfl, rfl⟩

/-- Settles O1: the decoder is run on each word. -/
theorem knownWordsDecode : Obligations.KnownWordsDecode := by
  refine ⟨rfl, rfl, rfl, rfl, ?_, ?_, ?_, ?_, ?_, ?_, rfl⟩ <;> decide

end Sys2Proof
end

section
/-! The accept test as a linear map (spec 42_frame_decoder.md R151 to R153): the nibble table, and a syndrome of four
bits that is 0 exactly for the accepted words and is additive under XOR. -/

namespace Sys2Proof

/-! ## The nibble table -/

/-- `T[k]`, the check nibble that R152 asks for where `crc[6:4] = k`. -/
def checkNibble (k : BitVec 3) : BitVec 4 := (Config.crcConst >>> (4 * k.toNat)).extractLsb' 0 4

/-- The entries of `T` as R153 prints them. -/
theorem checkNibble_toNat (k : BitVec 3) :
    (checkNibble k).toNat = [0x0, 0x7, 0xE, 0x9, 0xB, 0xC, 0x5, 0x2].getD k.toNat 0 := by
  revert k; decide

theorem checkNibble_xor (j k : BitVec 3) : checkNibble (j ^^^ k) = checkNibble j ^^^ checkNibble k := by
  revert j k; decide

/-- The shift count of R152 is four times `crc[6:4]`. -/
theorem shiftCount_eq (c : QWord) : ((c >>> 2) &&& 0x1c#32).toNat = 4 * (c.extractLsb' 4 3).toNat := by
  have hmask : (0x1c#32 : QWord) = 0x1f#32 &&& (BitVec.allOnes 32 <<< 2) := by decide
  have hlow : ((c >>> 2) &&& 0x1f#32).toNat = c.toNat / 2 ^ 2 % 2 ^ 5 := by
    rw [BitVec.toNat_and, BitVec.toNat_ushiftRight, Nat.shiftRight_eq_div_pow]
    exact Nat.and_two_pow_sub_one_eq_mod _ 5
  rw [hmask, ← BitVec.and_assoc, toNat_and_allOnes_shiftLeft, hlow, BitVec.extractLsb'_toNat,
    Nat.shiftRight_eq_div_pow]
  omega

/-- A word with its low nibble masked out is 0 exactly when the nibble is. -/
theorem and_lowNibble_eq_zero_iff (c : QWord) : c &&& 0xF#32 = 0#32 ↔ c.extractLsb' 0 4 = 0#4 := by
  rw [← BitVec.toNat_inj, ← BitVec.toNat_inj, BitVec.toNat_and, BitVec.extractLsb'_toNat]
  exact iff_of_eq (congrArg (· = 0) (Nat.and_two_pow_sub_one_eq_mod c.toNat 4))

/-- The accept test compares `crc[3:0]` with `T[crc[6:4]]` (R153). -/
theorem crcOk_iff_checkNibble (q : QWord) :
    crcOk q = true ↔ (crcFold q).extractLsb' 0 4 = checkNibble ((crcFold q).extractLsb' 4 3) := by
  rw [crcOk, beq_iff_eq, and_lowNibble_eq_zero_iff, shiftCount_eq, BitVec.extractLsb'_xor, BitVec.xor_eq_zero_iff,
    checkNibble]

/-! ## The syndrome -/

/-- `crc[3:0] ^ T[crc[6:4]]`. -/
def syndrome (q : QWord) : BitVec 4 := (crcFold q).extractLsb' 0 4 ^^^ checkNibble ((crcFold q).extractLsb' 4 3)

theorem crcOk_iff_syndrome (q : QWord) : crcOk q = true ↔ syndrome q = 0#4 := by
  rw [crcOk_iff_checkNibble, syndrome, BitVec.xor_eq_zero_iff]

/-- The fold is linear over XOR. -/
theorem crcFold_xor (p q : QWord) : crcFold (p ^^^ q) = crcFold p ^^^ crcFold q := by
  simp only [crcFold, BitVec.ushiftRight_xor_distrib]
  ac_rfl

theorem syndrome_xor (p q : QWord) : syndrome (p ^^^ q) = syndrome p ^^^ syndrome q := by
  simp only [syndrome, crcFold_xor, BitVec.extractLsb'_xor, checkNibble_xor]
  ac_rfl

theorem syndrome_frame_xor (x y : Frame) :
    syndrome ((x ^^^ y).zeroExtend 32) = syndrome (x.zeroExtend 32) ^^^ syndrome (y.zeroExtend 32) := by
  rw [← syndrome_xor]
  exact congrArg syndrome BitVec.setWidth_xor

/-- No single bit of a frame has the syndrome 0. -/
theorem syndrome_singleBit : ∀ i < 20, syndrome ((1#20 <<< i).zeroExtend 32) ≠ 0#4 := by decide

/-- The check nibble stands in the syndrome as it is. -/
theorem syndrome_check (c : BitVec 4) : syndrome ((0#16 ++ c : Frame).zeroExtend 32) = c := by
  revert c; decide

/-! ## The statements -/

/-- Settles O7: the accept test compares `crc[3:0]` with the table's entry. -/
theorem acceptTestIsTheNibbleTable : Obligations.AcceptTestIsTheNibbleTable := by
  intro q
  rw [crcOk_iff_checkNibble, ← BitVec.toNat_inj, checkNibble_toNat]

/-- Settles O8: the frame's syndrome is that of the data bits with an empty check, XORed with the check nibble. -/
theorem exactlyOneCheckNibblePerPrefix : Obligations.ExactlyOneCheckNibblePerPrefix := by
  intro p
  refine ⟨syndrome ((p ++ 0#4 : Frame).zeroExtend 32), fun c' => ?_⟩
  have hsplit : (p ++ c' : Frame) = (p ++ 0#4) ^^^ (0#16 ++ c') := by
    rw [BitVec.xor_append, BitVec.xor_zero, BitVec.zero_xor]
  rw [crcOk_iff_syndrome, hsplit, syndrome_frame_xor, syndrome_check, BitVec.xor_eq_zero_iff, eq_comm]

/-- Settles O9: inverting one bit adds that bit's syndrome, which is not 0, to the syndrome 0 of an accepted frame. -/
theorem everySingleBitErrorIsRejected : Obligations.EverySingleBitErrorIsRejected := by
  intro x i hi hx
  rw [← Bool.not_eq_true, crcOk_iff_syndrome, syndrome_frame_xor, (crcOk_iff_syndrome _).mp hx, BitVec.zero_xor]
  exact syndrome_singleBit i hi

/-- Settles O10: the syndromes of two accepted frames add up to 0. -/
theorem acceptedFramesAreClosedUnderXor : Obligations.AcceptedFramesAreClosedUnderXor := by
  refine ⟨by decide, fun x y hx hy => ?_⟩
  rw [crcOk_iff_syndrome] at hx hy ⊢
  rw [syndrome_frame_xor, hx, hy, BitVec.xor_zero]

end Sys2Proof
end

section
/-! One step of the machine (spec 60_exceptions.md section 6), said once: a step is one event, an event with `rst`
asserted leaves the reset values, and with `rst` not asserted it does one of the things `FreeStep` lists. Every
statement about all steps is a case split on that list. -/

namespace Sys2Proof.Machine

/-! ## The event of a step -/

/-- The event an idle step amounts to (log entry 2). Where nothing is enabled it is an event that changes nothing. -/
def idleEvent (s : State) : Event :=
  if s.rst then .publish
  else match s.phase with
    | .writing ks => .write (nextReg ks)
    | .idle =>
      if s.qPend.length > 0 then .publish
      else if s.nFreePend > 0 then .release
      else if s.qVis.length > 0 then .deq
      else if s.lag then .catchUp
      else .rstLevel false

theorem idleStep_eq (s : State) : idleStep s = runEvent (idleEvent s) s := by
  cases hr : s.rst with
  | true => simp [idleStep, idleEvent, runEvent, runHeld, hr]
  | false =>
    rw [runEvent_free hr]
    cases hp : s.phase with
    | writing ks => simp [idleStep, idleEvent, runFree, hr, hp]
    | idle =>
      simp only [idleStep, idleEvent, hr, hp, Bool.false_eq_true, if_false]
      split_ifs <;> rfl

/-- The event a step takes: the next one to come, or with none to come the idle step's. -/
def State.nextEvent (s : State) : Event := s.sched.head?.getD (idleEvent s)

/-- The state without the next event. -/
def State.pop (s : State) : State := { s with sched := s.sched.tail }

theorem pop_of_nil {s : State} (h : s.sched = []) : s.pop = s := by
  simp only [State.pop, h, List.tail_nil]
  exact congrArg (fun es => { s with sched := es }) h.symm

/-- A step is the run of one event, which leaves the schedule. -/
theorem step_eq_runEvent (s : State) : step s = runEvent s.nextEvent s.pop := by
  cases hs : s.sched with
  | nil => rw [step_idle hs, idleStep_eq, pop_of_nil hs, State.nextEvent, hs]; rfl
  | cons e es => rw [step_event hs, State.nextEvent, State.pop, hs]; rfl

/-- An idle step neither resets the block nor is a strobe. -/
theorem idleEvent_own (s : State) : (idleEvent s).resets = false ∧ ∀ src, idleEvent s ≠ .strobe src := by
  unfold idleEvent
  split
  · exact ⟨rfl, nofun⟩
  · cases s.phase with
    | writing ks => exact ⟨rfl, nofun⟩
    | idle => dsimp only; split_ifs <;> exact ⟨rfl, nofun⟩

theorem nextEvent_resets {s : State} (h : ∀ e ∈ s.sched.head?, e.resets = false) : s.nextEvent.resets = false := by
  cases hs : s.sched with
  | nil => simpa [State.nextEvent, hs] using (idleEvent_own s).1
  | cons e es => simpa [State.nextEvent, hs] using h

theorem sched_of_nextEvent_strobe {s : State} {src : Level} (h : s.nextEvent = .strobe src) :
    s.sched = .strobe src :: s.sched.tail := by
  cases hs : s.sched with
  | nil => simp [State.nextEvent, hs, (idleEvent_own s).2 src] at h
  | cons e es => simpa [State.nextEvent, hs] using h

/-! ## What an event does while `rst` is not asserted -/

/-- The events that change nothing where their step is not enabled (log entry 3), and lowering `rst` where it is low. -/
def Event.mayWait : Event → Bool
  | .publish => true
  | .deq => true
  | .decode => true
  | .write _ => true
  | .see _ => true
  | .rstLevel on => !on
  | _ => false

/-- The labels of the four discards (R201). -/
def Obs.isDiscard : Obs → Bool
  | .discLen _ => true
  | .discFull _ => true
  | .discCrc _ => true
  | .discField _ => true
  | _ => false

/-- What an event does to a state in which `rst` is not asserted, by the branches of the agents' rules. -/
inductive FreeStep (s : State) : Event → State → Prop where
  /-- The step is not enabled. -/
  | wait {e : Event} (he : e.mayWait = true) : FreeStep s e s
  | drive (u : Sample) : FreeStep s (.drive u) { s with lines := u }
  | clk {src : Level} (hc : classHist s.histWord = .clk) : FreeStep s (.strobe src) (edgeClk s.lines s)
  | data {src : Level} (hc : classHist s.histWord = .data) : FreeStep s (.strobe src) (edgeData s.lines s)
  /-- A gap after 20 bits, with room as S sees it (R104, R131). -/
  | emit {src : Level} (hc : classHist s.histWord = .gap) (hcnt : s.cnt = 20#5) (hroom : s.occ < 10) :
      FreeStep s (.strobe src)
        { s with acc := 0#20, cnt := 0#5, w := s.v, v := s.lines, qPend := s.qPend ++ [s.acc.zeroExtend 32],
                 history := .enqueued (s.acc.zeroExtend 32) :: s.history }
  /-- A gap that discards what was folded (R104, R131). -/
  | drop {src : Level} {o : Obs} (hc : classHist s.histWord = .gap) (ho : o.isDiscard = true) :
      FreeStep s (.strobe src) { s with acc := 0#20, cnt := 0#5, w := s.v, v := s.lines, history := o :: s.history }
  | publish {q : QWord} {rest : List QWord} (hq : s.qPend = q :: rest) :
      FreeStep s .publish { s with qVis := s.qVis ++ [q], qPend := rest }
  | release : FreeStep s .release (fifoRelease s)
  /-- D takes a word that has no writes (R154, R161). -/
  | discard {e : Event} {q : QWord} {rest : List QWord} {o : Obs} (he : e = .deq ∨ e = .decode)
      (hp : s.phase = .idle) (hq : s.qVis = q :: rest) (ho : o.isDiscard = true) :
      FreeStep s e (observe o (takeHead q s))
  /-- D takes a word and owes its writes (R132, R150). -/
  | owe {q : QWord} {rest : List QWord} (hp : s.phase = .idle) (hq : s.qVis = q :: rest)
      (hrej : classQW q ≠ .reject) (hfx : classQW q ≠ .fx) :
      FreeStep s .deq { takeHead q s with phase := .writing (writesOf q) }
  /-- D takes a word and performs its writes (R162). -/
  | decode {q : QWord} {rest : List QWord} (hp : s.phase = .idle) (hq : s.qVis = q :: rest)
      (hrej : classQW q ≠ .reject) (hfx : classQW q ≠ .fx) :
      FreeStep s .decode (storeAll (writesOf q) (takeHead q s))
  /-- D performs one pending write (R162). -/
  | write {ks : List RegWrite} {k : RegWrite} (hp : s.phase = .writing ks) (hk : k ∈ ks)
      (hfirst : k.reg = .init ∨ ∀ k' ∈ ks, k'.reg ≠ .init) :
      FreeStep s (.write k.reg) { storeReg k s with phase := phaseOf (ks.erase k) }
  | read (a : RdAddr) : FreeStep s (.rdReq a) (readPort a s)
  | lagOn : FreeStep s .lagOn { s with lag := true }
  /-- R sees one write (R57 (b), (c)). -/
  | see {a b : List RegWrite} {k : RegWrite} (hu : s.unseen = a ++ k :: b)
      (ha : ∀ k' ∈ a, k'.reg ≠ k.reg ∧ k'.reg ≠ .init) :
      FreeStep s (.see k.reg) { s with view := s.view.apply k, unseen := a ++ b }
  | catchUp : FreeStep s .catchUp (seeAll s)
  | reset : FreeStep s .rst (observe .reset (resetBlock s))
  | raise : FreeStep s (.rstLevel true) { observe .reset (resetBlock s) with rst := true }

/-! ## A word that D takes -/

/-- Setting the phase to IDLE in IDLE changes nothing. -/
theorem with_phase_idle {s : State} (h : s.phase = .idle) : { s with phase := .idle } = s := by
  rw [← h]

theorem finishDecode_of_idle {s : State} (h : s.phase = .idle) (ks : List RegWrite) :
    finishDecode ks s = storeAll ks s :=
  with_phase_idle (by rwa [storeAll_eq])

/-- A word taken in IDLE either has no writes and is discarded with a label, by DEQ and by the one-step decode alike, or
DEQ leaves its writes pending and the one-step decode performs them. -/
theorem decode_word_cases (q : QWord) {s : State} (hp : s.phase = .idle) :
    (writesOf q = [] ∧ ∃ o : Obs, o.isDiscard = true ∧ beginDecode q s = observe o s ∧
      exec (decodeQW q) s = .next (observe o s)) ∨
    (classQW q ≠ .reject ∧ classQW q ≠ .fx ∧ beginDecode q s = { s with phase := .writing (writesOf q) } ∧
      exec (decodeQW q) s = .next (storeAll (writesOf q) s)) := by
  rcases exec_decodeQW q s with ⟨hc, hnil, e⟩ | ⟨hc, hnil, e⟩ | ⟨hrej, hfx, e⟩
  · rw [with_phase_idle hp] at e
    exact .inl ⟨hnil, .discCrc q, rfl, by simp [beginDecode, hc, with_phase_idle hp], e⟩
  · rw [with_phase_idle hp] at e
    exact .inl ⟨hnil, .discField q, rfl, by simp [beginDecode, hc, with_phase_idle hp], e⟩
  · rw [finishDecode_of_idle hp] at e
    refine .inr ⟨hrej, hfx, ?_, e⟩
    rcases beginDecode_eq q s with ⟨hc, -⟩ | ⟨hc, -⟩ | ⟨-, -, h⟩ | ⟨-, -, h⟩ | ⟨-, -, h⟩ | ⟨-, -, h⟩
    · exact absurd hc hrej
    · exact absurd hc hfx
    all_goals exact h

/-! ## The list is complete -/

theorem freeStep_strobe {src : Level} {s t : State} (h : runFree (.strobe src) s = .next t) :
    FreeStep s (.strobe src) t := by
  rcases exec_edgeOp s.lines s with ⟨hc, e⟩ | ⟨hc, e⟩ | ⟨hc, e⟩ <;> cases e.symm.trans h
  · exact .clk hc
  · rcases closeFrame_eq s with ⟨hcnt, hroom, e⟩ | ⟨-, -, e⟩ | ⟨-, e⟩ <;> rw [edgeGap, e]
    · exact .emit hc hcnt hroom
    · exact .drop hc rfl
    · exact .drop hc rfl
  · exact .data hc

theorem freeStep_publish (s : State) : FreeStep s .publish (fifoPublish s) := by
  cases hq : s.qPend with
  | nil => rw [fifoPublish_nil hq]; exact .wait rfl
  | cons q rest => rw [fifoPublish_cons hq]; exact .publish hq

theorem freeStep_deq (s : State) : FreeStep s .deq (dequeueStep s) := by
  by_cases hwait : s.qVis = [] ∨ s.phase ≠ .idle
  · rw [dequeueStep_wait hwait]
    exact .wait rfl
  · obtain ⟨hne, hp⟩ : s.qVis ≠ [] ∧ s.phase = .idle := by simpa using hwait
    obtain ⟨q, rest, hq⟩ := List.exists_cons_of_ne_nil hne
    rw [dequeueStep_cons hp hq]
    rcases decode_word_cases q (s := takeHead q s) hp with ⟨-, o, ho, e, -⟩ | ⟨hrej, hfx, e, -⟩ <;> rw [e]
    · exact .discard (.inl rfl) hp hq ho
    · exact .owe hp hq hrej hfx

theorem freeStep_decode {s t : State} (h : decodeWhole s = .next t) : FreeStep s .decode t := by
  rcases decodeWhole_cases s with ⟨-, e⟩ | ⟨q, rest, hp, hq, e⟩ <;> rw [e] at h
  · cases h
    exact .wait rfl
  · rcases decode_word_cases q (s := takeHead q s) hp with ⟨-, o, ho, -, e⟩ | ⟨hrej, hfx, -, e⟩ <;>
      cases e.symm.trans h
    · exact .discard (.inr rfl) hp hq ho
    · exact .decode hp hq hrej hfx

theorem freeStep_write (r : RegName) (s : State) : FreeStep s (.write r) (writeStep r s) := by
  rcases writeStep_cases r s with e | ⟨ks, k, hp, hk, rfl, hfirst, e⟩ <;> rw [e]
  · exact .wait rfl
  · exact .write hp hk hfirst

theorem freeStep_see (r : RegName) (s : State) : FreeStep s (.see r) (seeReg r s) := by
  rcases seeReg_cases r s with e | ⟨a, k, b, hu, rfl, ha, e⟩ <;> rw [e]
  · exact .wait rfl
  · exact .see hu ha

/-- Every event does one of the things listed. -/
theorem freeStep_of_runFree {e : Event} {s t : State} (h : runFree e s = .next t) : FreeStep s e t := by
  cases e with
  | drive u => cases h; exact .drive u
  | strobe src => exact freeStep_strobe h
  | publish => cases h; exact freeStep_publish s
  | release => cases h; exact .release
  | deq => cases h; exact freeStep_deq s
  | decode => exact freeStep_decode h
  | write r => cases h; exact freeStep_write r s
  | rdReq a => cases h; exact .read a
  | lagOn => cases h; exact .lagOn
  | see r => cases h; exact freeStep_see r s
  | catchUp => cases h; exact .catchUp
  | rst => cases h; exact .reset
  | rstLevel on =>
    cases on
    · cases h; exact .wait rfl
    · cases h; exact .raise

/-- What a step can do: with `rst` asserted the block goes to its reset values, else the step's event does one of the
things listed. -/
theorem step_cases {s t : State} (h : step s = .next t) :
    (s.rst = true ∧ ∃ (u : Sample) (on : Bool),
      t = { resetBlock s with lines := u, rst := on, sched := s.sched.tail }) ∨
    (s.rst = false ∧ FreeStep s.pop s.nextEvent t) := by
  rw [step_eq_runEvent] at h
  cases hr : s.rst with
  | true =>
    rw [runEvent_held (s := s.pop) hr, runHeld_eq (s := s.pop) _ hr] at h
    cases h
    exact .inl ⟨rfl, _, _, rfl⟩
  | false =>
    rw [runEvent_free (s := s.pop) hr] at h
    exact .inr ⟨rfl, freeStep_of_runFree h⟩

end Sys2Proof.Machine
end

section
/-! The FIFO at every step (spec 41_frame_queue.md section 3, 20_memory.md section 3): what S sees of the occupancy, which
words enter, and that the words D has dequeued and those stored are the accepted ones. -/

namespace Sys2Proof.Machine

/-! ## Several writes leave the rest of the block alone -/

@[simp] theorem storeAll_acc (ks : List RegWrite) (s : State) : (storeAll ks s).acc = s.acc := by rw [storeAll_eq]
@[simp] theorem storeAll_cnt (ks : List RegWrite) (s : State) : (storeAll ks s).cnt = s.cnt := by rw [storeAll_eq]
@[simp] theorem storeAll_qVis (ks : List RegWrite) (s : State) : (storeAll ks s).qVis = s.qVis := by rw [storeAll_eq]
@[simp] theorem storeAll_qPend (ks : List RegWrite) (s : State) : (storeAll ks s).qPend = s.qPend := by rw [storeAll_eq]
@[simp] theorem storeAll_nFreePend (ks : List RegWrite) (s : State) : (storeAll ks s).nFreePend = s.nFreePend := by
  rw [storeAll_eq]
@[simp] theorem storeAll_phase (ks : List RegWrite) (s : State) : (storeAll ks s).phase = s.phase := by rw [storeAll_eq]
@[simp] theorem storeAll_lag (ks : List RegWrite) (s : State) : (storeAll ks s).lag = s.lag := by rw [storeAll_eq]
@[simp] theorem storeAll_rdData (ks : List RegWrite) (s : State) : (storeAll ks s).rdData = s.rdData := by
  rw [storeAll_eq]
@[simp] theorem storeAll_rst (ks : List RegWrite) (s : State) : (storeAll ks s).rst = s.rst := by rw [storeAll_eq]
@[simp] theorem storeAll_history (ks : List RegWrite) (s : State) : (storeAll ks s).history = s.history := by
  rw [storeAll_eq]
@[simp] theorem storeAll_regs (ks : List RegWrite) (s : State) :
    (storeAll ks s).regs = ks.foldl RegFile.apply s.regs := by rw [storeAll_eq]

/-! ## The labels of the FIFO -/

theorem acceptedWords_discard {o : Obs} (ho : o.isDiscard = true) (h : List Obs) :
    acceptedWords (o :: h) = acceptedWords h := by
  cases o with
  | discLen | discFull | discCrc | discField => rfl
  | _ => cases ho

theorem dequeuedWords_discard {o : Obs} (ho : o.isDiscard = true) (h : List Obs) :
    dequeuedWords (o :: h) = dequeuedWords h := by
  cases o with
  | discLen | discFull | discCrc | discField => rfl
  | _ => cases ho

/-- A word leaves at the head: it goes over from the stored words to the dequeued ones. -/
theorem fifoLogged_takeHead {s : State} {q : QWord} {rest : List QWord} (hq : s.qVis = q :: rest)
    (hl : s.FifoLogged) : (takeHead q s).FifoLogged := by
  simp only [State.FifoLogged, State.contents, hq, takeHead_history, takeHead_qVis, takeHead_qPend, List.tail_cons,
    acceptedWords, dequeuedWords] at hl ⊢
  rw [hl, List.cons_append, List.append_assoc, List.singleton_append]

/-- A discard's label speaks of no word of the FIFO. -/
theorem fifoLogged_observe {s : State} {o : Obs} (ho : o.isDiscard = true) (hl : s.FifoLogged) :
    (observe o s).FifoLogged := by
  rw [State.FifoLogged, observe_history, acceptedWords_discard ho, dequeuedWords_discard ho]
  exact hl

theorem FreeStep.fifoLogged {s t : State} {e : Event} (h : FreeStep s e t) (hl : s.FifoLogged) : t.FifoLogged := by
  cases h with
  | emit =>
    simp only [State.FifoLogged, State.contents, acceptedWords, dequeuedWords] at hl ⊢
    rw [hl, List.append_assoc, List.append_assoc]
  | drop _ ho => exact fifoLogged_observe (s := { s with acc := _, cnt := _, w := _, v := _ }) ho hl
  | publish hq =>
    simp only [State.FifoLogged, State.contents, hq] at hl ⊢
    simpa using hl
  | discard _ _ hq ho => exact fifoLogged_observe ho (fifoLogged_takeHead hq hl)
  | owe _ hq => exact fifoLogged_takeHead hq hl
  | @decode q _ _ hq =>
    have ht := fifoLogged_takeHead hq hl
    rwa [State.FifoLogged, State.contents, storeAll_history, storeAll_qVis, storeAll_qPend]
  | reset => rfl
  | raise => rfl
  | _ => exact hl

/-- An event that raises `rst` resets the block; no other raises it. -/
theorem FreeStep.heldAtReset {s t : State} {e : Event} (h : FreeStep s e t) (hr : s.rst = false) : t.HeldAtReset := by
  cases h with
  | decode => exact fun ht => by simp [hr] at ht
  | reset => exact fun _ => rfl
  | raise => exact fun _ => rfl
  | _ => exact fun ht => absurd (hr.symm.trans ht) nofun

/-- Settles O30: with `rst` asserted the FIFO was empty and stays so; else each kind of step keeps the order. -/
theorem fifoDeliversInOrderExactlyOnce : Obligations.FifoDeliversInOrderExactlyOnce := by
  intro s t hlog hheld hstep
  rcases step_cases hstep with ⟨hr, u, on, rfl⟩ | ⟨hr, h⟩
  · refine ⟨?_, fun _ => rfl⟩
    have hempty : s.contents = [] := (congrArg State.contents (hheld hr)).symm
    rw [State.FifoLogged, hempty] at hlog
    exact hlog
  · exact ⟨h.fifoLogged hlog, h.heldAtReset (s := s.pop) hr⟩

/-! ## The occupancy -/

/-- A word that leaves the visible ones leaves a freed slot, so S sees the occupancy as before. -/
theorem occ_takeHead {s : State} {q : QWord} {rest : List QWord} (hq : s.qVis = q :: rest) :
    (takeHead q s).occ = s.occ := by
  simp only [State.occ, takeHead_qVis, takeHead_qPend, takeHead_nFreePend, hq, List.tail_cons, List.length_cons]
  omega

theorem FreeStep.occ_le {s t : State} {e : Event} (h : FreeStep s e t) (hocc : s.occ ≤ 10) : t.occ ≤ 10 := by
  cases h with
  | emit _ _ hroom =>
    simp only [State.occ, List.length_append, List.length_singleton] at hroom ⊢
    omega
  | publish hq =>
    simp only [State.occ, hq, List.length_append, List.length_cons, List.length_nil] at hocc ⊢
    omega
  | release =>
    simp only [State.occ, fifoRelease_qVis, fifoRelease_qPend, fifoRelease_nFreePend] at hocc ⊢
    omega
  | discard _ _ hq => exact (occ_takeHead hq).trans_le hocc
  | owe _ hq => exact (occ_takeHead hq).trans_le hocc
  | decode _ hq =>
    have ht := (occ_takeHead hq).trans_le hocc
    rwa [State.occ, storeAll_qVis, storeAll_qPend, storeAll_nFreePend]
  | reset => exact Nat.zero_le 10
  | raise => exact Nat.zero_le 10
  | _ => exact hocc

/-- Settles O31: ENQ asks for room as S sees it, and no other step makes the occupancy greater. -/
theorem occupancyNeverExceedsTheCapacity : Obligations.OccupancyNeverExceedsTheCapacity := by
  intro s t hocc hstep
  rcases step_cases hstep with ⟨-, u, on, rfl⟩ | ⟨-, h⟩
  · exact Nat.zero_le 10
  · exact h.occ_le hocc

/-! ## The words that enter -/

/-- Only a gap after 20 bits adds a pending word (R114). -/
theorem FreeStep.of_qPend_grows {s t : State} {e : Event} (h : FreeStep s e t)
    (hlt : s.qPend.length < t.qPend.length) :
    (∃ src, e = .strobe src) ∧ classHist s.histWord = .gap ∧ s.cnt = 20#5 ∧
      t.qPend = s.qPend ++ [s.acc.zeroExtend 32] := by
  cases h with
  | emit hc hcnt => exact ⟨⟨_, rfl⟩, hc, hcnt, rfl⟩
  | publish hq => simp [hq] at hlt
  | decode => simp at hlt
  | reset => exact absurd hlt (Nat.not_lt_zero _)
  | raise => exact absurd hlt (Nat.not_lt_zero _)
  | _ => exact absurd hlt (Nat.lt_irrefl _)

/-- Settles O22: with `rst` asserted no word enters, else only in the gap step of a strobe. -/
theorem onlyCompleteFramesEnterTheFifo : Obligations.OnlyCompleteFramesEnterTheFifo := by
  intro s t hstep hlt
  rcases step_cases hstep with ⟨-, u, on, rfl⟩ | ⟨hr, h⟩
  · exact absurd hlt (Nat.not_lt_zero _)
  · obtain ⟨⟨src, he⟩, hgap, hcnt, hq⟩ := h.of_qPend_grows hlt
    exact ⟨⟨src, _, sched_of_nextEvent_strobe he⟩, hr, hgap, hcnt, hq⟩

end Sys2Proof.Machine
end

section
/-! The register file and R's view of it at every step (spec 20_memory.md R57, 42_frame_decoder.md R162): a step performs
writes of D, shows R one write or all, or leaves both alone. -/

namespace Sys2Proof.Machine

/-! ## Several writes as R sees them -/

@[simp] theorem storeAll_view (ks : List RegWrite) (s : State) :
    (storeAll ks s).view = if s.lag then s.view else ks.foldl RegFile.apply s.view := by rw [storeAll_eq]
@[simp] theorem storeAll_unseen (ks : List RegWrite) (s : State) :
    (storeAll ks s).unseen = if s.lag then s.unseen ++ ks else s.unseen := by rw [storeAll_eq]

/-! ## What a step does to the registers -/

/-- What R reads from: the register file, R's view of it, the writes R has not seen, and whether it lags. -/
def State.readSide (s : State) : RegFile × RegFile × List RegWrite × Bool := (s.regs, s.view, s.unseen, s.lag)

/-- The writes D performs in one step: a whole decode's, or one that is pending and allowed (R162). -/
inductive State.Performs (s : State) : List RegWrite → Prop where
  | whole {q : QWord} (hrej : classQW q ≠ .reject) (hfx : classQW q ≠ .fx) : s.Performs (writesOf q)
  | one {ks : List RegWrite} {k : RegWrite} (hp : s.phase = .writing ks) (hk : k ∈ ks)
      (hfirst : k.reg = .init ∨ ∀ k' ∈ ks, k'.reg ≠ .init) : s.Performs [k]

/-- What a step that resets nothing does to the register file and to R's view of it. -/
inductive RegStep (s t : State) : Prop where
  | same (h : t.readSide = s.readSide)
  | lag (h : t.readSide = (s.regs, s.view, s.unseen, true))
  | store {ks : List RegWrite} (hks : s.Performs ks) (h : t.readSide = (storeAll ks s).readSide)
  | see {a b : List RegWrite} {k : RegWrite} (hu : s.unseen = a ++ k :: b)
      (ha : ∀ k' ∈ a, k'.reg ≠ k.reg ∧ k'.reg ≠ .init)
      (h : t.readSide = (s.regs, s.view.apply k, a ++ b, s.lag))
  | seeAll (h : t.readSide = (seeAll s).readSide)

theorem FreeStep.regStep {s t : State} {e : Event} (h : FreeStep s e t) (he : e.resets = false) : RegStep s t := by
  cases h with
  | decode _ _ hrej hfx => exact .store (.whole hrej hfx) (by rw [storeAll_eq, storeAll_eq]; rfl)
  | write hp hk hfirst => exact .store (.one hp hk hfirst) rfl
  | lagOn => exact .lag rfl
  | see hu ha => exact .see hu ha rfl
  | catchUp => exact .seeAll rfl
  | reset => cases he
  | raise => cases he
  | _ => exact .same rfl

/-- An event that resets leaves the reset values. -/
theorem FreeStep.readSide_of_resets {s t : State} {e : Event} (h : FreeStep s e t) (he : e.resets = true) :
    t.readSide = (RegFile.reset, RegFile.reset, [], false) := by
  cases h with
  | reset => rfl
  | raise => rfl
  | wait hw =>
    cases e with
    | rst => cases hw
    | rstLevel on =>
      obtain rfl : on = true := he
      cases hw
    | _ => cases he
  | discard hd => rcases hd with rfl | rfl <;> cases he
  | _ => cases he

/-- With `rst` asserted, and where the event resets the block, a step leaves the reset values; else it changes the
registers as `RegStep` says. -/
theorem step_registers {s t : State} (h : step s = .next t) :
    t.readSide = (RegFile.reset, RegFile.reset, [], false) ∨
    (s.rst = false ∧ s.nextEvent.resets = false ∧ RegStep s.pop t) := by
  rcases step_cases h with ⟨-, u, on, rfl⟩ | ⟨hr, h⟩
  · exact .inl rfl
  · cases he : s.nextEvent.resets with
    | true => exact .inl (h.readSide_of_resets he)
    | false => exact .inr ⟨hr, rfl, h.regStep he⟩

theorem step_registers_of_not_resets {s t : State} (hr : s.rst = false)
    (he : ∀ e ∈ s.sched.head?, e.resets = false) (h : step s = .next t) : RegStep s.pop t := by
  rcases step_cases h with ⟨hr', -⟩ | ⟨-, h⟩
  · simp [hr] at hr'
  · exact h.regStep (nextEvent_resets he)

theorem readSide_eq_iff {s : State} {f v : RegFile} {u : List RegWrite} {l : Bool} :
    s.readSide = (f, v, u, l) ↔ s.regs = f ∧ s.view = v ∧ s.unseen = u ∧ s.lag = l := by
  simp [State.readSide]

/-! ## R's view follows D's registers -/

/-- A write shown before those of other registers ends in the same registers. -/
theorem foldl_see {a : List RegWrite} {k : RegWrite} (ha : ∀ k' ∈ a, k'.reg ≠ k.reg) (b : List RegWrite)
    (f : RegFile) : (a ++ b).foldl RegFile.apply (f.apply k) = (a ++ k :: b).foldl RegFile.apply f := by
  rw [List.foldl_append, List.foldl_append, List.foldl_cons, foldl_apply_comm ha]

theorem viewInSync_reset {t : State} (h : t.readSide = (RegFile.reset, RegFile.reset, [], false)) :
    t.ViewInSync := by
  obtain ⟨hregs, hview, hunseen, -⟩ := readSide_eq_iff.mp h
  rw [State.ViewInSync, hregs, hview, hunseen]
  exact ⟨rfl, fun _ => rfl⟩

theorem RegStep.viewInSync {s t : State} (h : RegStep s t) (hs : s.ViewInSync) : t.ViewInSync := by
  obtain ⟨hsync, hnone⟩ := hs
  cases h with
  | same h =>
    obtain ⟨hregs, hview, hunseen, hlag⟩ := readSide_eq_iff.mp h
    rw [State.ViewInSync, hregs, hview, hunseen, hlag]
    exact ⟨hsync, hnone⟩
  | lag h =>
    obtain ⟨hregs, hview, hunseen, hlag⟩ := readSide_eq_iff.mp h
    rw [State.ViewInSync, hregs, hview, hunseen, hlag]
    exact ⟨hsync, nofun⟩
  | @store ks _ h =>
    obtain ⟨hregs, hview, hunseen, hlag⟩ := readSide_eq_iff.mp h
    rw [State.ViewInSync, hregs, hview, hunseen, hlag, storeAll_regs, storeAll_view, storeAll_unseen, storeAll_lag]
    cases hl : s.lag with
    | true => exact ⟨by simp [hsync], nofun⟩
    | false =>
      have heq : s.view = s.regs := by simpa [hnone hl] using hsync
      exact ⟨by simp [hnone hl, heq], fun _ => by simpa using hnone hl⟩
  | @see a b k hu ha h =>
    obtain ⟨hregs, hview, hunseen, hlag⟩ := readSide_eq_iff.mp h
    rw [State.ViewInSync, hregs, hview, hunseen, hlag, foldl_see (fun k' hk' => (ha k' hk').1), ← hu]
    exact ⟨hsync, fun hl => by simp [hnone hl] at hu⟩
  | seeAll h =>
    obtain ⟨hregs, hview, hunseen, -⟩ := readSide_eq_iff.mp h
    rw [State.ViewInSync, hregs, hview, hunseen]
    exact ⟨hsync, fun _ => rfl⟩

/-! ## One register under several writes -/

theorem zeroExtend_init_inj (m m' : BitVec 4) (h : m.zeroExtend 16 = m'.zeroExtend 16) : m = m' := by
  revert m m'; decide

/-- A write's effect on a register depends on that register alone. -/
theorem read_apply_congr {f g : RegFile} {r : RegName} (h : f.read r = g.read r) (k : RegWrite) :
    (f.apply k).read r = (g.apply k).read r := by
  by_cases hk : k.reg = r
  · subst hk
    cases k with
    | init n =>
      have hinit : f.init = g.init := zeroExtend_init_inj _ _ h
      simp only [RegWrite.reg, RegFile.apply, RegFile.read, hinit]
    | _ => rfl
  · rw [read_apply_ne hk, read_apply_ne hk, h]

theorem read_foldl_congr {f g : RegFile} {r : RegName} (h : f.read r = g.read r) (ks : List RegWrite) :
    (ks.foldl RegFile.apply f).read r = (ks.foldl RegFile.apply g).read r := by
  induction ks generalizing f g with
  | nil => exact h
  | cons k ks ih => exact ih (read_apply_congr h k)

/-- Of several writes only those of a register change it. -/
theorem read_foldl_filter (r : RegName) (ks : List RegWrite) (f : RegFile) :
    ((ks.filter (fun k => k.reg == r)).foldl RegFile.apply f).read r = (ks.foldl RegFile.apply f).read r := by
  induction ks generalizing f with
  | nil => rfl
  | cons k ks ih =>
    by_cases hk : k.reg = r
    · rw [List.filter_cons_of_pos (by simpa using hk)]
      exact ih (f.apply k)
    · rw [List.filter_cons_of_neg (by simpa using hk), ih, List.foldl_cons]
      exact read_foldl_congr (read_apply_ne hk f).symm ks

/-! ## R sees each register's writes in D's order -/

/-- From `s` to `t` D performs at most one write of register `r`, the new one; the unseen writes of `r` and then the new
one are those R sees and then those it has still not seen; and R's view of `r` is the old one after the writes it sees. -/
def MovesForward (s t : State) (r : RegName) : Prop :=
  ∃ new seen : List RegWrite,
    new.length ≤ 1 ∧ (∀ k ∈ new, k.reg = r) ∧ t.regs.read r = (new.foldl RegFile.apply s.regs).read r ∧
    s.unseenOf r ++ new = seen ++ t.unseenOf r ∧
    t.view.read r = (seen.foldl RegFile.apply s.view).read r

/-- The writes of one step are of different registers. -/
theorem State.Performs.nodup {s : State} {ks : List RegWrite} (h : s.Performs ks) : (ks.map RegWrite.reg).Nodup := by
  cases h with
  | whole hrej hfx =>
    obtain ⟨-, -, -, -, hnodup, -⟩ := writesOf_shape _ hrej hfx
    exact hnodup
  | one => exact List.nodup_singleton _

/-- Of writes of different registers at most one is of a given register. -/
theorem length_filter_reg_le_one {ks : List RegWrite} (h : (ks.map RegWrite.reg).Nodup) (r : RegName) :
    (ks.filter (fun k => k.reg == r)).length ≤ 1 := by
  have hcount : (ks.map RegWrite.reg).count r ≤ 1 := List.nodup_iff_count_le_one.mp h r
  rwa [List.count, List.countP_map, List.countP_eq_length_filter] at hcount

theorem movesForward_still {s t : State} (hregs : t.regs = s.regs) (hview : t.view = s.view)
    (hunseen : t.unseen = s.unseen) (r : RegName) : MovesForward s t r :=
  ⟨[], [], by simp, by simp, by simp [hregs], by simp [State.unseenOf, hunseen], by simp [hview]⟩

theorem movesForward_store {s t : State} {ks : List RegWrite} (hks : (ks.map RegWrite.reg).Nodup)
    (hs : s.ViewInSync) (h : t.readSide = (storeAll ks s).readSide) (r : RegName) : MovesForward s t r := by
  obtain ⟨hregs, hview, hunseen, -⟩ := readSide_eq_iff.mp h
  rw [storeAll_regs] at hregs
  have hof : ∀ k ∈ ks.filter (fun k => k.reg == r), k.reg = r := by simp
  have hreg : t.regs.read r = ((ks.filter (fun k => k.reg == r)).foldl RegFile.apply s.regs).read r := by
    rw [hregs, read_foldl_filter]
  refine ⟨ks.filter (fun k => k.reg == r), if s.lag then [] else ks.filter (fun k => k.reg == r),
    length_filter_reg_le_one hks r, hof, hreg, ?_, ?_⟩
  · cases hl : s.lag with
    | true => simp [State.unseenOf, hunseen, hl]
    | false => simp [State.unseenOf, hunseen, hl, hs.2 hl]
  · cases hl : s.lag with
    | true => simp [hview, hl]
    | false => simp [hview, hl, read_foldl_filter]

theorem movesForward_see {s t : State} {a b : List RegWrite} {k : RegWrite} (hu : s.unseen = a ++ k :: b)
    (ha : ∀ k' ∈ a, k'.reg ≠ k.reg) (hregs : t.regs = s.regs) (hview : t.view = s.view.apply k)
    (hunseen : t.unseen = a ++ b) (r : RegName) : MovesForward s t r := by
  refine ⟨[], [k].filter (fun k => k.reg == r), by simp, by simp, by simp [hregs], ?_, ?_⟩
  · by_cases hk : k.reg = r
    · have hnone : a.filter (fun k => k.reg == r) = [] := by
        simpa [List.filter_eq_nil_iff, ← hk] using ha
      simp [State.unseenOf, hu, hunseen, hk, hnone]
    · simp [State.unseenOf, hu, hunseen, hk]
  · rw [read_foldl_filter, hview]
    rfl

theorem movesForward_seeAll {s t : State} (h : t.readSide = (seeAll s).readSide) (r : RegName) :
    MovesForward s t r := by
  obtain ⟨hregs, hview, hunseen, -⟩ := readSide_eq_iff.mp h
  refine ⟨[], s.unseenOf r, by simp, by simp, by simp [hregs], by simp [State.unseenOf, hunseen], ?_⟩
  rw [State.unseenOf, read_foldl_filter, hview, seeAll_view]

theorem RegStep.movesForward {s t : State} (h : RegStep s t) (hs : s.ViewInSync) (r : RegName) :
    MovesForward s t r := by
  cases h with
  | same h =>
    obtain ⟨hregs, hview, hunseen, -⟩ := readSide_eq_iff.mp h
    exact movesForward_still hregs hview hunseen r
  | lag h =>
    obtain ⟨hregs, hview, hunseen, -⟩ := readSide_eq_iff.mp h
    exact movesForward_still hregs hview hunseen r
  | store hks h => exact movesForward_store hks.nodup hs h r
  | see hu ha h =>
    obtain ⟨hregs, hview, hunseen, -⟩ := readSide_eq_iff.mp h
    exact movesForward_see hu (fun k' hk' => (ha k' hk').1) hregs hview hunseen r
  | seeAll h => exact movesForward_seeAll h r

/-- Settles O44: a reset puts both register files at the reset values; every other step of the registers keeps the view
in step and moves it forward in each register. -/
theorem readersNeverSeeAnOlderWriteAgain : Obligations.ReadersNeverSeeAnOlderWriteAgain := by
  intro s t hs hstep
  have hpop : s.pop.ViewInSync := hs
  refine ⟨?_, fun hr he r => ?_⟩
  · rcases step_registers hstep with hreset | ⟨-, -, hregs⟩
    · exact viewInSync_reset hreset
    · exact hregs.viewInSync hpop
  · exact (step_registers_of_not_resets hr he hstep).movesForward hpop r

/-! ## INIT -/

theorem and_initUpdate (m : BitVec 4) (n : BitVec 2) : m &&& initUpdate m n = m := by
  revert m n; decide

/-- No write clears a bit of INIT. -/
theorem init_and_apply (k : RegWrite) (f : RegFile) : f.init &&& (f.apply k).init = f.init := by
  cases k with
  | init n => exact and_initUpdate f.init n
  | _ => exact BitVec.and_self

theorem init_and_foldl (ks : List RegWrite) (f : RegFile) :
    f.init &&& (ks.foldl RegFile.apply f).init = f.init := by
  induction ks generalizing f with
  | nil => exact BitVec.and_self
  | cons k ks ih =>
    rw [← init_and_apply k f, BitVec.and_assoc, List.foldl_cons, ih (f.apply k)]

theorem RegStep.init_and {s t : State} (h : RegStep s t) : s.regs.init &&& t.regs.init = s.regs.init := by
  cases h with
  | @store ks _ h =>
    rw [(readSide_eq_iff.mp h).1, storeAll_regs]
    exact init_and_foldl ks s.regs
  | same h => rw [(readSide_eq_iff.mp h).1, BitVec.and_self]
  | lag h => rw [(readSide_eq_iff.mp h).1, BitVec.and_self]
  | see _ _ h => rw [(readSide_eq_iff.mp h).1, BitVec.and_self]
  | seeAll h => rw [(readSide_eq_iff.mp h).1, seeAll_regs, BitVec.and_self]

/-- Settles O39: the registers change by writes alone, and no write clears a bit. -/
theorem initBitsAreNeverCleared : Obligations.InitBitsAreNeverCleared :=
  fun _ _ hr he hstep => (step_registers_of_not_resets hr he hstep).init_and

end Sys2Proof.Machine
end

section
/-! The invariant of the block, part by part (spec 10_state.md, 30_encoding.md R73, 20_memory.md R57). -/

namespace Sys2Proof.Machine

/-! ## The words and the accumulator -/

theorem topBitsZero_zeroExtend (x : Frame) : topBitsZero (x.zeroExtend 32) = true := by
  rw [topBitsZero_iff]
  have hx := x.isLt
  simp only [BitVec.zeroExtend, BitVec.toNat_setWidth]
  omega

/-- The words D has dequeued leave, and the ones that enter are frames (R73, R104). -/
theorem FreeStep.words {s t : State} {e : Event} (h : FreeStep s e t)
    (hw : ∀ q ∈ s.contents, topBitsZero q = true) : ∀ q ∈ t.contents, topBitsZero q = true := by
  have taken {q : QWord} {rest : List QWord} (hq : s.qVis = q :: rest) :
      ∀ q' ∈ (takeHead q s).contents, topBitsZero q' = true := fun q' hq' =>
    hw q' (by
      simp only [State.contents, takeHead_qVis, takeHead_qPend, hq, List.tail_cons] at hq' ⊢
      exact List.mem_cons_of_mem q hq')
  cases h with
  | emit =>
    intro q hq
    simp only [State.contents, ← List.append_assoc, List.mem_append, List.mem_singleton] at hq hw
    rcases hq with hq | rfl
    · exact hw q hq
    · exact topBitsZero_zeroExtend s.acc
  | publish hq => simpa [State.contents, hq] using hw
  | discard _ _ hq => exact taken hq
  | owe _ hq => exact taken hq
  | decode _ hq =>
    have ht := taken hq
    rwa [State.contents, storeAll_qVis, storeAll_qPend]
  | reset => exact nofun
  | raise => exact nofun
  | _ => exact hw

/-- While `cnt <= 20`, `acc[19:cnt]` is zero (R23). -/
def AccOk (acc : Frame) (cnt : BitVec 5) : Prop := cnt.toNat ≤ Config.frameBits → acc.toNat < 2 ^ cnt.toNat

theorem accOk_zero : AccOk 0#20 0#5 := fun _ => by simp

/-- A fold doubles `acc`, adds a bit and counts one. -/
theorem accOk_edgeClk {s : State} (h : AccOk s.acc s.cnt) (u : Sample) :
    AccOk (edgeClk u s).acc (edgeClk u s).cnt := by
  intro hle
  simp only [edgeClk_eq, cntIncr_toNat, Config.frameBits] at hle ⊢
  have hcnt : min (s.cnt.toNat + 1) 31 = s.cnt.toNat + 1 := by omega
  have hacc := h (by simp only [Config.frameBits]; omega)
  have hbit := Bool.toNat_le (u.getLsbD 1)
  rw [hcnt, Nat.pow_succ, BitVec.toNat_ofNat]
  exact (Nat.mod_le _ _).trans_lt (by omega)

theorem FreeStep.accOk {s t : State} {e : Event} (h : FreeStep s e t) (ha : AccOk s.acc s.cnt) :
    AccOk t.acc t.cnt := by
  cases h with
  | clk => exact accOk_edgeClk ha s.lines
  | emit => exact accOk_zero
  | drop => exact accOk_zero
  | decode => rwa [storeAll_acc, storeAll_cnt]
  | reset => exact accOk_zero
  | raise => exact accOk_zero
  | _ => exact ha

/-! ## `rd_data` -/

theorem zero_rdBits : (0x0000#16).toNat < 2 ^ 11 := by decide

/-- No register is wider than eleven bits. -/
theorem readAddr_lt (f : RegFile) (a : RdAddr) : (f.readAddr a).toNat < 2 ^ 11 := by
  have narrow {n : Nat} (hn : n ≤ 11) (x : BitVec n) : (x.zeroExtend 16).toNat < 2 ^ 11 :=
    calc (x.zeroExtend 16).toNat = x.toNat % 2 ^ 16 := BitVec.toNat_setWidth 16 x
      _ ≤ x.toNat := Nat.mod_le _ _
      _ < 2 ^ n := x.isLt
      _ ≤ 2 ^ 11 := Nat.pow_le_pow_right (by decide) hn
  unfold RegFile.readAddr
  cases regAt a with
  | none => exact zero_rdBits
  | some r => cases r <;> exact narrow (by decide) _

theorem FreeStep.rdBits {s t : State} {e : Event} (h : FreeStep s e t) (hr : s.rdData.toNat < 2 ^ 11) :
    t.rdData.toNat < 2 ^ 11 := by
  cases h with
  | read a => exact readAddr_lt s.view a
  | decode => rwa [storeAll_rdData]
  | reset => exact zero_rdBits
  | raise => exact zero_rdBits
  | _ => exact hr

/-! ## The registers and R's view -/

/-- A register file as the block leaves it: the direction patterns are legal, and a register whose INIT bit is clear is at
its reset value. -/
def FileOk (f : RegFile) : Prop := f.dirsLegal ∧ f.unsetAtReset

/-- A write with a legal value whose field's INIT bit is set. -/
def Admits (f : RegFile) (k : RegWrite) : Prop :=
  k.legal ∧ ∀ n : BitVec 2, k.reg.field = some n → initHas f.init n = true

theorem unseenOk_cons (f : RegFile) (k : RegWrite) (ks : List RegWrite) :
    UnseenOk f (k :: ks) ↔ Admits f k ∧ UnseenOk (f.apply k) ks := by
  simp only [UnseenOk, Admits, and_assoc]

theorem unseenOk_append (f : RegFile) (as bs : List RegWrite) :
    UnseenOk f (as ++ bs) ↔ UnseenOk f as ∧ UnseenOk (as.foldl RegFile.apply f) bs := by
  induction as generalizing f with
  | nil => simp [UnseenOk]
  | cons a as ih => simp only [List.cons_append, unseenOk_cons, ih, List.foldl_cons, and_assoc]

theorem initHas_apply {f : RegFile} {n : BitVec 2} (k : RegWrite) (h : initHas f.init n = true) :
    initHas (f.apply k).init n = true := by
  cases k with
  | init m => exact initHas_initUpdate_mono f.init m n h
  | _ => exact h

theorem Admits.apply {f : RegFile} {k : RegWrite} (h : Admits f k) (k' : RegWrite) : Admits (f.apply k') k :=
  ⟨h.1, fun n hn => initHas_apply k' (h.2 n hn)⟩

theorem dirsLegal_apply {f : RegFile} {k : RegWrite} (hk : k.legal) (hf : f.dirsLegal) : (f.apply k).dirsLegal := by
  obtain ⟨hhatx, hhaty, hdpadx, hdpady⟩ := hf
  cases k with
  | hatx d => exact ⟨hk, hhaty, hdpadx, hdpady⟩
  | haty d => exact ⟨hhatx, hk, hdpadx, hdpady⟩
  | dpadx d => exact ⟨hhatx, hhaty, hk, hdpady⟩
  | dpady d => exact ⟨hhatx, hhaty, hdpadx, hk⟩
  | _ => exact ⟨hhatx, hhaty, hdpadx, hdpady⟩

/-- A register may be interpreted after a write if it might before: no INIT bit is cleared. -/
theorem meaningful_apply {f : RegFile} {r : RegName} (k : RegWrite) (h : f.meaningful r = true) :
    (f.apply k).meaningful r = true := by
  unfold RegFile.meaningful at h ⊢
  cases hr : r.field with
  | none => rfl
  | some n => simp only [hr] at h ⊢; exact initHas_apply k h

/-- An admitted write leaves its own register meaningful. -/
theorem Admits.meaningful {f : RegFile} {k : RegWrite} (h : Admits f k) : (f.apply k).meaningful k.reg = true := by
  unfold RegFile.meaningful
  cases hr : k.reg.field with
  | none => rfl
  | some n => exact initHas_apply k (h.2 n hr)

theorem unsetAtReset_apply {f : RegFile} {k : RegWrite} (hk : Admits f k) (hf : f.unsetAtReset) :
    (f.apply k).unsetAtReset := by
  intro r hr
  have hne : k.reg ≠ r := fun e => by simp [← e, hk.meaningful] at hr
  rw [read_apply_ne hne]
  exact hf r (Bool.eq_false_iff.mpr fun h => by simp [meaningful_apply k h] at hr)

theorem fileOk_apply {f : RegFile} {k : RegWrite} (hk : Admits f k) (hf : FileOk f) : FileOk (f.apply k) :=
  ⟨dirsLegal_apply hk.1 hf.1, unsetAtReset_apply hk hf.2⟩

theorem fileOk_foldl {f : RegFile} {ks : List RegWrite} (hks : UnseenOk f ks) (hf : FileOk f) :
    FileOk (ks.foldl RegFile.apply f) := by
  induction ks generalizing f with
  | nil => exact hf
  | cons k ks ih =>
    obtain ⟨hk, hks⟩ := (unseenOk_cons f k ks).mp hks
    exact ih hks (fileOk_apply hk hf)

/-- Taking a write out of the order it was performed in, before writes of other registers and no INIT write. -/
theorem unseenOk_see {f : RegFile} {a b : List RegWrite} {k : RegWrite}
    (ha : ∀ k' ∈ a, k'.reg ≠ k.reg ∧ k'.reg ≠ .init) (h : UnseenOk f (a ++ k :: b)) :
    Admits f k ∧ UnseenOk (f.apply k) (a ++ b) := by
  induction a generalizing f with
  | nil => exact (unseenOk_cons f k b).mp h
  | cons c cs ih =>
    obtain ⟨hc, hcs⟩ := (unseenOk_cons f c _).mp h
    obtain ⟨hne, hinit⟩ := ha c (by simp)
    obtain ⟨hk, hrest⟩ := ih (fun k' hk' => ha k' (by simp [hk'])) hcs
    have hk : Admits f k := by rwa [Admits, init_apply_ne hinit] at hk
    rw [apply_comm hne] at hrest
    exact ⟨hk, (unseenOk_cons _ _ _).mpr ⟨hc.apply k, hrest⟩⟩

/-- The part of the invariant that speaks of what R sees; the parts on D's registers follow from it. -/
def State.ReadOk (s : State) : Prop := FileOk s.view ∧ s.ViewInSync ∧ UnseenOk s.view s.unseen

theorem State.ReadOk.fileOk_regs {s : State} (h : s.ReadOk) : FileOk s.regs := by
  obtain ⟨hview, ⟨hsync, -⟩, hunseen⟩ := h
  rw [← hsync]
  exact fileOk_foldl hunseen hview

theorem State.ReadOk.viewInit {s : State} (h : s.ReadOk) : s.view.init &&& s.regs.init = s.view.init := by
  obtain ⟨-, ⟨hsync, -⟩, -⟩ := h
  rw [← hsync]
  exact init_and_foldl s.unseen s.view

/-! ## The writes of a decode -/

/-- The writes of a word, INIT's first, are admitted in order. -/
theorem unseenOk_writesOf {q : QWord} (hrej : classQW q ≠ .reject) (hfx : classQW q ≠ .fx) (f : RegFile) :
    UnseenOk f (writesOf q) := by
  obtain ⟨n, ks, e, hks, -, -⟩ := writesOf_shape q hrej hfx
  rw [e, unseenOk_cons]
  refine ⟨⟨trivial, nofun⟩, ?_⟩
  have hset : initHas (f.apply (.init n)).init n = true := initHas_initUpdate_self f.init n
  clear e
  generalize f.apply (.init n) = g at hset
  induction ks generalizing g with
  | nil => trivial
  | cons k ks ih =>
    obtain ⟨⟨hlegal, hfield⟩, hks⟩ := List.forall_mem_cons.mp hks
    refine (unseenOk_cons g k ks).mpr ⟨⟨hlegal, fun m hm => ?_⟩, ih hks _ (initHas_apply k hset)⟩
    rwa [← Option.some.inj (hfield.symm.trans hm)]

/-- A write that belongs to a field and is of INIT is the field's INIT write. -/
theorem eq_init_of_ofField {k : RegWrite} {n : BitVec 2} (hk : k.ofField n) (hr : k.reg = .init) : k = .init n :=
  hk.elim id fun h => by simp [hr, RegName.field] at h

/-- A pending write that D may perform is admitted (R162). -/
theorem admits_pending {ks : List RegWrite} {f : RegFile} {k : RegWrite} (h : PendingOk ks f.init) (hk : k ∈ ks)
    (hfirst : k.reg = .init ∨ ∀ k' ∈ ks, k'.reg ≠ .init) : Admits f k := by
  obtain ⟨-, -, n, hall, hn⟩ := h
  obtain ⟨hlegal, hof⟩ := hall k hk
  refine ⟨hlegal, fun m hm => ?_⟩
  have hne : k.reg ≠ .init := fun e => by simp [e, RegName.field] at hm
  have hnone := hfirst.resolve_left hne
  have hfield : k.reg.field = some n := hof.resolve_left fun e => hne (by rw [e]; rfl)
  rw [← Option.some.inj (hfield.symm.trans hm)]
  exact hn.resolve_left fun hmem => hnone _ hmem rfl

/-- What D still owes after one write is as the invariant asks. -/
theorem pendingOk_erase {ks : List RegWrite} {f : RegFile} {k : RegWrite} (h : PendingOk ks f.init) (hk : k ∈ ks)
    (hfirst : k.reg = .init ∨ ∀ k' ∈ ks, k'.reg ≠ .init) (hne : ks.erase k ≠ []) :
    PendingOk (ks.erase k) (f.apply k).init := by
  obtain ⟨-, hnodup, n, hall, hn⟩ := h
  refine ⟨hne, hnodup.sublist ((List.erase_sublist).map _), n, fun k' hk' => hall k' (List.mem_of_mem_erase hk'),
    .inr ?_⟩
  rcases hfirst with hr | hnone
  · rw [eq_init_of_ofField (hall k hk).2 hr]
    exact initHas_initUpdate_self f.init n
  · exact initHas_apply k (hn.resolve_left fun hmem => hnone _ hmem rfl)

/-- A decode that DEQ begins owes writes as the invariant asks. -/
theorem pendingOk_writesOf {q : QWord} (hrej : classQW q ≠ .reject) (hfx : classQW q ≠ .fx) (mask : BitVec 4) :
    PendingOk (writesOf q) mask := by
  obtain ⟨n, ks, e, hks, hnodup, -⟩ := writesOf_shape q hrej hfx
  refine ⟨by simp [e], hnodup, n, fun k hk => ?_, .inl (by simp [e])⟩
  rcases List.mem_cons.mp (e ▸ hk) with rfl | hk
  · exact ⟨trivial, .inl rfl⟩
  · exact ⟨(hks k hk).1, .inr (hks k hk).2⟩

/-- The pending writes of a state are as the invariant asks. -/
def State.OwesOk (s : State) : Prop := ∀ ks, s.phase = .writing ks → PendingOk ks s.regs.init

theorem FreeStep.owesOk {s t : State} {e : Event} (h : FreeStep s e t) (ho : s.OwesOk) : t.OwesOk := by
  cases h with
  | owe _ _ hrej hfx =>
    intro ks hks
    cases hks
    exact pendingOk_writesOf hrej hfx _
  | decode hp => exact fun ks hks => by simp [hp] at hks
  | @write ks k hp hk hfirst =>
    intro ks' hks'
    cases hrest : ks.erase k with
    | nil => simp [hrest, phaseOf] at hks'
    | cons c cs =>
      have hne : ks.erase k ≠ [] := by simp [hrest]
      have heq : ks.erase k = ks' := by simpa [hrest, phaseOf] using hks'
      exact heq ▸ pendingOk_erase (ho ks hp) hk hfirst hne
  | reset => exact nofun
  | raise => exact nofun
  | _ => exact ho

/-- The writes D performs in one step are admitted. -/
theorem State.Performs.unseenOk {s : State} {ks : List RegWrite} (h : s.Performs ks) (ho : s.OwesOk) :
    UnseenOk s.regs ks := by
  cases h with
  | whole hrej hfx => exact unseenOk_writesOf hrej hfx s.regs
  | one hp hk hfirst => exact (unseenOk_cons _ _ _).mpr ⟨admits_pending (ho _ hp) hk hfirst, trivial⟩

/-! ## R's view at every step -/

theorem fileOk_reset : FileOk RegFile.reset :=
  ⟨by simp [RegFile.dirsLegal, RegFile.reset], fun r _ => by cases r <;> rfl⟩

theorem readOk_reset {t : State} (h : t.readSide = (RegFile.reset, RegFile.reset, [], false)) : t.ReadOk := by
  obtain ⟨-, hview, hunseen, -⟩ := readSide_eq_iff.mp h
  refine ⟨?_, viewInSync_reset h, ?_⟩
  · rw [hview]; exact fileOk_reset
  · rw [hunseen]; trivial

theorem RegStep.readOk {s t : State} (h : RegStep s t) (ho : s.OwesOk) (hs : s.ReadOk) : t.ReadOk := by
  have hsync := h.viewInSync hs.2.1
  have hregs := hs.fileOk_regs
  obtain ⟨hfile, hinsync, hunseen⟩ := hs
  suffices hview : FileOk t.view ∧ UnseenOk t.view t.unseen from ⟨hview.1, hsync, hview.2⟩
  cases h with
  | same h =>
    obtain ⟨-, ev, eu, -⟩ := readSide_eq_iff.mp h
    rw [ev, eu]
    exact ⟨hfile, hunseen⟩
  | lag h =>
    obtain ⟨-, ev, eu, -⟩ := readSide_eq_iff.mp h
    rw [ev, eu]
    exact ⟨hfile, hunseen⟩
  | @store ks hks h =>
    obtain ⟨-, ev, eu, -⟩ := readSide_eq_iff.mp h
    have hok := hks.unseenOk ho
    rw [ev, eu, storeAll_view, storeAll_unseen]
    cases hl : s.lag with
    | true =>
      rw [if_pos rfl, if_pos rfl]
      exact ⟨hfile, (unseenOk_append _ _ _).mpr ⟨hunseen, by rwa [hinsync.1]⟩⟩
    | false =>
      have heq : s.view = s.regs := by simpa [hinsync.2 hl] using hinsync.1
      rw [heq]
      simp only [Bool.false_eq_true, if_false, hinsync.2 hl]
      exact ⟨fileOk_foldl hok hregs, trivial⟩
  | see hu ha h =>
    obtain ⟨-, ev, eu, -⟩ := readSide_eq_iff.mp h
    rw [hu] at hunseen
    obtain ⟨hk, hrest⟩ := unseenOk_see ha hunseen
    rw [ev, eu]
    exact ⟨fileOk_apply hk hfile, hrest⟩
  | seeAll h =>
    obtain ⟨-, ev, eu, -⟩ := readSide_eq_iff.mp h
    rw [ev, eu, seeAll_view, seeAll_unseen, hinsync.1]
    exact ⟨hregs, trivial⟩

/-! ## The invariant -/

/-- The invariant, with what it says of R's view in one part. -/
theorem inv_of_parts {s : State} (occ : s.occ ≤ 10) (words : ∀ q ∈ s.contents, topBitsZero q = true)
    (acc : AccOk s.acc s.cnt) (owes : s.OwesOk) (read : s.ReadOk) (held : s.HeldAtReset) (logged : s.FifoLogged)
    (rdBits : s.rdData.toNat < 2 ^ 11) : s.Inv where
  occ := occ
  words := words
  accBits := acc
  pending := owes
  regsDirs := read.fileOk_regs.1
  viewDirs := read.1.1
  regsUnset := read.fileOk_regs.2
  viewUnset := read.1.2
  viewInit := read.viewInit
  viewSync := read.2.1
  unseenOk := read.2.2
  held := held
  logged := logged
  rdBits := rdBits

theorem State.Inv.readOk {s : State} (h : s.Inv) : s.ReadOk := ⟨⟨h.viewDirs, h.viewUnset⟩, h.viewSync, h.unseenOk⟩

/-- Settles O55: the reset values, part by part. -/
theorem resetStateMeetsTheInvariant : Obligations.ResetStateMeetsTheInvariant :=
  inv_of_reset_but_fifo (by decide) nofun rfl

/-- The block at its reset values meets the invariant if its history says the FIFO is empty. -/
theorem inv_of_held {s : State} (hl : s.FifoLogged) (hempty : s.contents = []) (u : Sample) (on : Bool)
    (es : List Event) : State.Inv { resetBlock s with lines := u, rst := on, sched := es } :=
  inv_of_parts (Nat.zero_le 10) nofun accOk_zero nofun (readOk_reset rfl) (fun _ => rfl)
    (by rw [State.FifoLogged, hempty] at hl; exact hl) zero_rdBits

/-- Settles O56: with `rst` asserted the block is at its reset values and stays there; else each part of the invariant is
kept by each kind of step. -/
theorem everyStepKeepsTheInvariant : Obligations.EveryStepKeepsTheInvariant := by
  intro s t hs hstep
  obtain ⟨hlogged, hheld⟩ := fifoDeliversInOrderExactlyOnce s t hs.logged hs.held hstep
  rcases step_cases hstep with ⟨hr, u, on, rfl⟩ | ⟨hr, h⟩
  · exact inv_of_held hs.logged (congrArg State.contents (hs.held hr)).symm u on _
  · have howes : s.pop.OwesOk := hs.pending
    have hread : t.ReadOk := by
      rcases step_registers hstep with hreset | ⟨-, -, hregs⟩
      · exact readOk_reset hreset
      · exact hregs.readOk howes hs.readOk
    exact inv_of_parts (h.occ_le hs.occ) (h.words hs.words) (h.accOk hs.accBits) (h.owesOk howes) hread hheld
      hlogged (h.rdBits hs.rdBits)

end Sys2Proof.Machine
end

section
/-! What an event may change (spec 10_state.md R43, 60_exceptions.md section 6), and the block coming to rest when nothing
is scheduled (R133, R212). -/

namespace Sys2Proof.Machine

/-! ## Each agent's own state -/

theorem FreeStep.ownStateOnly {s t : State} {e : Event} (h : FreeStep s e t) (hr : s.rst = false) :
    e.OwnStateOnly s t := by
  cases h with
  | wait he =>
    cases e with
    | rstLevel on =>
      have hon : on = false := by simpa [Event.mayWait] using he
      exact ⟨rfl, rfl, hr.trans hon.symm⟩
    | publish | deq | decode | write | see => rfl
    | _ => cases he
  | discard he => rcases he with rfl | rfl <;> rfl
  | decode => rw [storeAll_eq]; rfl
  | reset => exact ⟨rfl, rfl, hr⟩
  | raise => exact ⟨rfl, rfl, rfl⟩
  | _ => rfl

/-- Settles O54: each kind of step writes the fields of its agent. -/
theorem eachAgentWritesOnlyItsOwnState : Obligations.EachAgentWritesOnlyItsOwnState := by
  intro s t e hr h
  rw [runEvent_free hr] at h
  exact (freeStep_of_runFree h).ownStateOnly hr

/-! ## The write D performs next -/

/-- An allowed pending write is performed and leaves the others pending (R162). -/
theorem writeStep_of_mem {s : State} {ks : List RegWrite} {k : RegWrite} (hp : s.phase = .writing ks) (hk : k ∈ ks)
    (hnodup : (ks.map RegWrite.reg).Nodup) (hfirst : k.reg = .init ∨ ∀ k' ∈ ks, k'.reg ≠ .init) :
    writeStep k.reg s = { storeReg k s with phase := phaseOf (ks.erase k) } := by
  simp only [writeStep, hp, pickWrite_of_mem hk hnodup hfirst]

/-- The register an idle step names has a pending write that is allowed. -/
theorem nextReg_allowed {ks : List RegWrite} (hne : ks ≠ []) :
    ∃ k ∈ ks, nextReg ks = k.reg ∧ (k.reg = .init ∨ ∀ k' ∈ ks, k'.reg ≠ .init) := by
  by_cases hinit : ks.any (fun k => k.reg == .init) = true
  · obtain ⟨k, hk, hr⟩ := List.any_eq_true.mp hinit
    have hr : k.reg = .init := by simpa using hr
    exact ⟨k, hk, (if_pos hinit).trans hr.symm, .inl hr⟩
  · obtain ⟨k, rest, rfl⟩ := List.exists_cons_of_ne_nil hne
    exact ⟨k, by simp, if_neg hinit, .inr (by simpa using hinit)⟩

/-! ## The work left -/

/-- How many writes are pending. -/
def Phase.owed : Phase → Nat
  | .idle => 0
  | .writing ks => ks.length

@[simp] theorem owed_idle : Phase.idle.owed = 0 := rfl

@[simp] theorem owed_writing (ks : List RegWrite) : (Phase.writing ks).owed = ks.length := rfl

@[simp] theorem owed_phaseOf (ks : List RegWrite) : (phaseOf ks).owed = ks.length := by
  cases ks <;> rfl

/-- A bound on the steps to rest: a pending word costs PUBLISH, a visible one DEQ, at most six writes and RELEASE. -/
def State.work (s : State) : Nat :=
  s.phase.owed + 9 * s.qPend.length + 8 * s.qVis.length + s.nFreePend + s.lag.toNat

/-- The registers a decode of a field may write. -/
def fieldRegs (n : BitVec 2) : List RegName :=
  [.x, .y, .lt, .rt, .thr, .hatx, .haty, .dpadx, .dpady, .btn, .init].filter
    (fun r => r = .init ∨ r.field = some n)

theorem length_fieldRegs_le (n : BitVec 2) : (fieldRegs n).length ≤ 6 := by revert n; decide

theorem reg_mem_fieldRegs {n : BitVec 2} {k : RegWrite} (hk : k.ofField n) : k.reg ∈ fieldRegs n := by
  rcases hk with rfl | hf
  · simp [fieldRegs, RegWrite.reg]
  · have hall : k.reg ∈ [.x, .y, .lt, .rt, .thr, .hatx, .haty, .dpadx, .dpady, .btn, .init] := by
      cases k.reg <;> decide
    exact List.mem_filter.mpr ⟨hall, by simp [hf]⟩

theorem PendingOk.length_le {ks : List RegWrite} {mask : BitVec 4} (h : PendingOk ks mask) : ks.length ≤ 6 := by
  obtain ⟨-, hnodup, n, hall, -⟩ := h
  have hsub : ks.map RegWrite.reg ⊆ fieldRegs n := by
    intro r hr
    obtain ⟨k, hk, rfl⟩ := List.mem_map.mp hr
    exact reg_mem_fieldRegs (hall k hk).2
  calc ks.length = (ks.map RegWrite.reg).length := (List.length_map _).symm
    _ ≤ (fieldRegs n).length := (List.subperm_of_subset hnodup hsub).length_le
    _ ≤ 6 := length_fieldRegs_le n

theorem State.Inv.work_le {s : State} (h : s.Inv) : s.work ≤ 100 := by
  have hocc : s.qVis.length + s.qPend.length + s.nFreePend ≤ 10 := h.occ
  have howed : s.phase.owed ≤ 6 := by
    cases hp : s.phase with
    | idle => exact Nat.zero_le 6
    | writing ks => exact (h.pending ks hp).length_le
  have hlag := Bool.toNat_le s.lag
  unfold State.work
  omega

/-! ## An idle step does some of it -/

/-- The word D takes leaves less work, whatever its class. -/
theorem work_dequeueStep {s : State} {q : QWord} {rest : List QWord} (hp : s.phase = .idle) (hq : s.qVis = q :: rest) :
    (dequeueStep s).work < s.work := by
  rw [dequeueStep_cons hp hq]
  rcases decode_word_cases q (s := takeHead q s) hp with ⟨-, o, -, e, -⟩ | ⟨hrej, hfx, e, -⟩ <;> rw [e]
  · simp only [State.work, observe_phase, observe_qPend, observe_qVis, observe_nFreePend, observe_lag, takeHead_phase,
      takeHead_qPend, takeHead_qVis, takeHead_nFreePend, takeHead_lag, hq, List.tail_cons, List.length_cons]
    omega
  · obtain ⟨-, -, -, -, -, hlen⟩ := writesOf_shape q hrej hfx
    simp only [State.work, hp, owed_writing, owed_idle, takeHead_qPend, takeHead_qVis, takeHead_nFreePend,
      takeHead_lag, hq, List.tail_cons, List.length_cons]
    omega

/-- With `rst` not asserted a block that is not at rest has an idle step, and it leaves less work. -/
theorem idleStep_progress {s : State} (hs : s.Inv) (hr : s.rst = false) :
    s.Quiescent ∨ ∃ t, idleStep s = .next t ∧ t.work < s.work := by
  cases hp : s.phase with
  | writing ks =>
    obtain ⟨hne, hnodup, -⟩ := hs.pending ks hp
    obtain ⟨k, hk, hnext, hfirst⟩ := nextReg_allowed hne
    refine .inr ⟨writeStep (nextReg ks) s, by simp [idleStep, hr, hp], ?_⟩
    rw [hnext, writeStep_of_mem hp hk hnodup hfirst]
    have hpos := List.length_pos_of_mem hk
    simp only [State.work, hp, owed_phaseOf, owed_writing, List.length_erase_of_mem hk, storeReg_qPend, storeReg_qVis,
      storeReg_nFreePend, storeReg_lag]
    omega
  | idle =>
    by_cases hpend : s.qPend = []
    case neg =>
      obtain ⟨q, rest, hq⟩ := List.exists_cons_of_ne_nil hpend
      refine .inr ⟨fifoPublish s, by simp [idleStep, hr, hp, hq, exec, execPublish], ?_⟩
      rw [fifoPublish_cons hq]
      simp only [State.work, hq, List.length_append, List.length_cons, List.length_nil]
      omega
    by_cases hfree : s.nFreePend = 0
    case neg =>
      refine .inr ⟨fifoRelease s, by simp [idleStep, hr, hp, hpend, hfree, Nat.pos_of_ne_zero, exec, execRelease], ?_⟩
      simp only [State.work, fifoRelease_phase, fifoRelease_qPend, fifoRelease_qVis, fifoRelease_nFreePend,
        fifoRelease_lag]
      omega
    by_cases hvis : s.qVis = []
    case neg =>
      obtain ⟨q, rest, hq⟩ := List.exists_cons_of_ne_nil hvis
      exact .inr ⟨dequeueStep s, by simp [idleStep, hr, hp, hpend, hfree, hq, exec, execDeq],
        work_dequeueStep hp hq⟩
    cases hlag : s.lag with
    | true =>
      refine .inr ⟨seeAll s, by simp [idleStep, hr, hp, hpend, hfree, hvis, hlag], ?_⟩
      simp [State.work, hlag]
    | false => exact .inl ⟨hvis, hpend, hfree, hp, hlag, hs.viewSync.2 hlag⟩

/-- Only a reset changes the level of `rst`, and no event adds to the schedule. -/
theorem FreeStep.rst_sched {s t : State} {e : Event} (h : FreeStep s e t) (he : e.resets = false) :
    t.rst = s.rst ∧ t.sched = s.sched := by
  cases h with
  | decode => rw [storeAll_eq]; exact ⟨rfl, rfl⟩
  | reset => cases he
  | raise => cases he
  | _ => exact ⟨rfl, rfl⟩

theorem idleStep_rst_sched {s t : State} (hr : s.rst = false) (h : idleStep s = .next t) :
    t.rst = false ∧ t.sched = s.sched := by
  rw [idleStep_eq, runEvent_free hr] at h
  obtain ⟨hrst, hsched⟩ := (freeStep_of_runFree h).rst_sched (idleEvent_own s).1
  exact ⟨hrst.trans hr, hsched⟩

/-! ## Runs -/

theorem run_succ (M : Host.Core) {s t : M.State} (h : M.step s = .next t) (k : Nat) : M.run (k + 1) s = M.run k t := by
  simp only [Host.Core.run, h]

theorem drains_within_work (n : Nat) {s : State} (hs : s.Inv) (hr : s.rst = false) (hsched : s.sched = [])
    (hwork : s.work ≤ n) :
    ∃ (k : Nat) (t : State), k ≤ n ∧ Host.Core.run Sys2Proof.core k s = .next t ∧ t.Quiescent ∧ t.Inv := by
  induction n generalizing s with
  | zero =>
    rcases idleStep_progress hs hr with hq | ⟨t, -, hlt⟩
    · exact ⟨0, s, le_rfl, rfl, hq, hs⟩
    · omega
  | succ n ih =>
    rcases idleStep_progress hs hr with hq | ⟨t, hstep, hlt⟩
    · exact ⟨0, s, Nat.zero_le _, rfl, hq, hs⟩
    · obtain ⟨hr', hsched'⟩ := idleStep_rst_sched hr hstep
      rw [← step_idle hsched] at hstep
      obtain ⟨k, t', hk, hrun, hq, ht'⟩ :=
        ih (everyStepKeepsTheInvariant s t hs hstep) hr' (hsched'.trans hsched) (by omega)
      exact ⟨k + 1, t', Nat.succ_le_succ hk, (run_succ Sys2Proof.core hstep k).trans hrun, hq, ht'⟩

/-- Settles O57: the work left is at most 100, and every idle step leaves less until the block is at rest; with the FIFO
empty the accepted words are the dequeued ones. -/
theorem theBlockDrainsWhenNothingIsScheduled : Obligations.TheBlockDrainsWhenNothingIsScheduled := by
  intro s hs hr hsched
  obtain ⟨k, t, hk, hrun, hq, ht⟩ := drains_within_work 100 hs hr hsched hs.work_le
  refine ⟨k, t, hk, hrun, hq, ?_⟩
  obtain ⟨hvis, hpend, -⟩ := hq
  have hlog : acceptedWords t.history = dequeuedWords t.history ++ t.contents := ht.logged
  rw [hlog, (contents_eq_nil_iff t).mpr ⟨hvis, hpend⟩, List.append_nil]

end Sys2Proof.Machine
end

section
/-! Sequences of edge steps (spec 40_edge_sampler.md section 4): what a step leaves in the sampler's registers and which
ENQ request it makes, both of the sampler's registers and the sample alone; and what the steps between two gaps fold. -/

namespace Sys2Proof.Machine

/-! ## One edge step as the sampler's registers see it -/

/-- The sampler's registers after an edge step with sample `u` (R102, R104 to R106). -/
def samplerAfter (u : Sample) (p : Sample × Sample × Frame × BitVec 5) : Sample × Sample × Frame × BitVec 5 :=
  if u.getLsbD 0 ≠ p.1.getLsbD 0 then
    (u, p.1, BitVec.ofNat 20 (2 * p.2.2.1.toNat + (u.getLsbD 1).toNat), cntIncr p.2.2.2)
  else if gap u p.1 p.2.1 = true then (u, p.1, 0#20, 0#5)
  else (u, p.1, p.2.2.1, p.2.2.2)

/-- The ENQ request of an edge step with sample `u`: at a gap after 20 bits the frame, else none (R104, R114). -/
def requestOf (u : Sample) (p : Sample × Sample × Frame × BitVec 5) : List QWord :=
  if gap u p.1 p.2.1 = true ∧ p.2.2.2 = 20#5 then [p.2.2.1.zeroExtend 32] else []

/-- The label of a dropped frame is the whole of the word S requested. -/
theorem truncate_zeroExtend_frame (x : Frame) : (x.zeroExtend 32).truncate 20 = x :=
  (BitVec.setWidth_setWidth_of_le x (by decide)).trans (BitVec.setWidth_eq x)

/-- The ENQ request that a label speaks of. -/
def Obs.request : Obs → List QWord
  | .enqueued q => [q]
  | .discFull x => [x.zeroExtend 32]
  | _ => []

theorem requestSeen_of_label {s t : State} {o : Obs} (h : t.history = o :: s.history) :
    requestSeen s t = o.request := by
  unfold requestSeen
  rw [h]
  cases o <;> simp [Obs.request]

theorem requestSeen_edgeClk (u : Sample) (s : State) : requestSeen s (edgeClk u s) = [] :=
  requestSeen_of_history_eq rfl

theorem requestSeen_edgeData (u : Sample) (s : State) : requestSeen s (edgeData u s) = [] :=
  requestSeen_of_history_eq rfl

theorem edgeGap_sampler (u : Sample) (s : State) : (edgeGap u s).sampler = (u, s.v, 0#20, 0#5) := by
  rcases closeFrame_eq s with ⟨-, -, e⟩ | ⟨-, -, e⟩ | ⟨-, e⟩ <;> rw [edgeGap, e] <;> rfl

/-- A boundary requests the frame exactly when 20 bits were folded, whether S sees room or not. -/
theorem edgeGap_request (u : Sample) (s : State) :
    requestSeen s (edgeGap u s) = if s.cnt = 20#5 then [s.acc.zeroExtend 32] else [] := by
  rcases closeFrame_eq s with ⟨hcnt, -, e⟩ | ⟨hcnt, -, e⟩ | ⟨hcnt, e⟩ <;> rw [edgeGap, e]
  · rw [requestSeen_of_label (o := .enqueued (s.acc.zeroExtend 32)) rfl, if_pos hcnt]
    rfl
  · rw [truncate_zeroExtend_frame, requestSeen_of_label (o := .discFull s.acc) rfl, if_pos hcnt]
    rfl
  · rw [requestSeen_of_label (o := .discLen s.cnt) rfl, if_neg hcnt]
    rfl

/-- Every edge step answers a state with the sampler's registers and the request that `samplerAfter` and `requestOf`
give. -/
theorem edgeStep_sampler (u : Sample) (s : State) :
    ∃ t, exec (edgeOp u s) s = .next t ∧ t.sampler = samplerAfter u s.sampler ∧
      requestSeen s t = requestOf u s.sampler := by
  rcases exec_edgeOp u s with ⟨hc, e⟩ | ⟨hc, e⟩ | ⟨hc, e⟩ <;> refine ⟨_, e, ?_⟩
  · have hclk := (classHist_eq_clk_iff s.w s.v u).mp hc
    have hgap : ¬ gap u s.v s.w = true := fun h => hclk (clock_eq_of_gap h)
    refine ⟨?_, ?_⟩
    · rw [edgeClk_eq]
      exact (if_pos hclk).symm
    · rw [requestSeen_edgeClk]
      exact (if_neg fun h => hgap h.1).symm
  · have hgap := (classHist_eq_gap_iff s.w s.v u).mp hc
    refine ⟨?_, ?_⟩
    · rw [edgeGap_sampler]
      exact ((if_neg fun h => h (clock_eq_of_gap hgap)).trans (if_pos hgap)).symm
    · rw [edgeGap_request]
      simp only [requestOf, State.sampler, hgap, true_and]
  · obtain ⟨hclk, hgap⟩ := (classHist_eq_data_iff s.w s.v u).mp hc
    have hgap : ¬ gap u s.v s.w = true := by simp [hgap]
    refine ⟨?_, ?_⟩
    · exact ((if_neg fun h => h hclk).trans (if_neg hgap)).symm
    · rw [requestSeen_edgeData]
      exact (if_neg fun h => hgap h.1).symm

/-! ## Sequences of edge steps -/

theorem edgeSteps_cons {u : Sample} {s t : State} (h : exec (edgeOp u s) s = .next t) (us : List Sample) :
    edgeSteps (u :: us) s = (edgeSteps us t).map (fun p => (p.1, requestSeen s t ++ p.2)) := by
  simp only [edgeSteps, h]

/-- Settles O20: by `edgeStep_sampler` each step's registers and request depend on the sampler's registers alone. -/
theorem requestsDependOnTheSamplesAlone : Obligations.RequestsDependOnTheSamplesAlone := by
  intro s₁ s₂ us hs
  induction us generalizing s₁ s₂ with
  | nil => exact ⟨s₁, s₂, [], rfl, rfl, hs⟩
  | cons u us ih =>
    obtain ⟨t₁, e₁, hsamp₁, hreq₁⟩ := edgeStep_sampler u s₁
    obtain ⟨t₂, e₂, hsamp₂, hreq₂⟩ := edgeStep_sampler u s₂
    obtain ⟨r₁, r₂, qs, hr₁, hr₂, hr⟩ := ih t₁ t₂ (by rw [hsamp₁, hsamp₂, hs])
    refine ⟨r₁, r₂, requestOf u s₁.sampler ++ qs, ?_, ?_, hr⟩
    · rw [edgeSteps_cons e₁, hr₁, hreq₁]; rfl
    · rw [edgeSteps_cons e₂, hr₂, hreq₂, hs]; rfl

/-- An edge step of a gap's class runs EDGE.GAP. -/
theorem exec_edgeOp_of_gap {u : Sample} {s : State} (h : classHist (mkHist s.w s.v u) = .gap) :
    exec (edgeOp u s) s = .next (edgeGap u s) := by
  rcases exec_edgeOp u s with ⟨hc, -⟩ | ⟨-, e⟩ | ⟨hc, -⟩
  · simp [hc] at h
  · exact e
  · simp [hc] at h

/-- Settles O21: a gap clears `acc` and `cnt`, so that with equal `v` and `w` nothing of the past is left; then O20. -/
theorem aGapResynchronisesTheSampler : Obligations.AGapResynchronisesTheSampler := by
  intro s₁ s₂ u₁ u₂ us h₁ h₂
  have hsamp₁ := edgeGap_sampler u₁ s₁
  have hsamp₂ := edgeGap_sampler u₂ s₂
  obtain ⟨hv₁, hw₁, hacc₁, hcnt₁⟩ : (edgeGap u₁ s₁).v = u₁ ∧ (edgeGap u₁ s₁).w = s₁.v ∧
    (edgeGap u₁ s₁).acc = 0#20 ∧ (edgeGap u₁ s₁).cnt = 0#5 := by simpa [State.sampler] using hsamp₁
  obtain ⟨hv₂, hw₂, hacc₂, hcnt₂⟩ : (edgeGap u₂ s₂).v = u₂ ∧ (edgeGap u₂ s₂).w = s₂.v ∧
    (edgeGap u₂ s₂).acc = 0#20 ∧ (edgeGap u₂ s₂).cnt = 0#5 := by simpa [State.sampler] using hsamp₂
  refine ⟨edgeGap u₁ s₁, edgeGap u₂ s₂, exec_edgeOp_of_gap h₁, exec_edgeOp_of_gap h₂, hacc₁, hcnt₁, hacc₂, hcnt₂,
    fun hv hw => ?_⟩
  have hsame : (edgeGap u₁ s₁).sampler = (edgeGap u₂ s₂).sampler := by
    simp only [State.sampler, hv, hw, hacc₁, hacc₂, hcnt₁, hcnt₂]
  exact ⟨hsame, requestsDependOnTheSamplesAlone _ _ us hsame⟩

/-! ## The bits folded between gaps -/

/-- The number that bits write after the number `n`. -/
def bitsFrom (n : Nat) (bs : List Level) : Nat := bs.foldl (fun m b => 2 * m + b.toNat) n

theorem bitsFrom_lt (n : Nat) (bs : List Level) : bitsFrom n bs < (n + 1) * 2 ^ bs.length := by
  induction bs generalizing n with
  | nil => simp [bitsFrom]
  | cons b bs ih =>
    have hb := b.isLt
    calc bitsFrom n (b :: bs) < (2 * n + b.toNat + 1) * 2 ^ bs.length := ih (2 * n + b.toNat)
      _ ≤ ((n + 1) * 2) * 2 ^ bs.length := Nat.mul_le_mul_right _ (by omega)
      _ = (n + 1) * 2 ^ (b :: bs).length := by rw [List.length_cons, Nat.pow_succ]; ring

/-- The number modulo the accumulator's width depends on the start modulo it. -/
theorem bitsFrom_mod {n m : Nat} (h : n % 2 ^ 20 = m % 2 ^ 20) (bs : List Level) :
    bitsFrom n bs % 2 ^ 20 = bitsFrom m bs % 2 ^ 20 := by
  induction bs generalizing n m with
  | nil => exact h
  | cons b bs ih => exact ih (n := 2 * n + b.toNat) (m := 2 * m + b.toNat) (by omega)

theorem ofNat_bitsFrom_toNat (n : Nat) (bs : List Level) :
    BitVec.ofNat 20 (bitsFrom (BitVec.ofNat 20 n).toNat bs) = BitVec.ofNat 20 (bitsFrom n bs) := by
  apply BitVec.eq_of_toNat_eq
  rw [BitVec.toNat_ofNat, BitVec.toNat_ofNat]
  exact bitsFrom_mod (Nat.mod_mod n _) bs

theorem clockBit_eq_iff (u v : Sample) : clockBit u = clockBit v ↔ u.getLsbD 0 = v.getLsbD 0 := by
  revert u v; decide

theorem foldedBits_of_clock_ne {u v : Sample} (h : u.getLsbD 0 ≠ v.getLsbD 0) (us : List Sample) :
    foldedBits v (u :: us) = dataBit u :: foldedBits u us :=
  if_neg fun e => h ((clockBit_eq_iff u v).mp e)

theorem foldedBits_of_clock_eq {u v : Sample} (h : u.getLsbD 0 = v.getLsbD 0) (us : List Sample) :
    foldedBits v (u :: us) = foldedBits u us :=
  if_pos ((clockBit_eq_iff u v).mpr h)

/-- Over samples none of which completes a gap, S counts the clock edges, shifts their data levels into `acc`, and makes
no request. -/
theorem edgeSteps_gapFree (us : List Sample) (s : State) (hfree : gapFree s.w s.v us = true) : ∃ t : State,
    edgeSteps us s = some (t, []) ∧
    t.cnt.toNat = min (s.cnt.toNat + (foldedBits s.v us).length) 31 ∧
    t.acc = BitVec.ofNat 20 (bitsFrom s.acc.toNat (foldedBits s.v us)) ∧
    t = { s with acc := t.acc, cnt := t.cnt, v := t.v, w := t.w } := by
  induction us generalizing s with
  | nil =>
    have hcnt := s.cnt.isLt
    refine ⟨s, rfl, ?_, ?_, rfl⟩
    · simp only [foldedBits, List.length_nil]; omega
    · exact (BitVec.ofNat_toNat 20 s.acc).symm ▸ (BitVec.setWidth_eq s.acc).symm
  | cons u us ih =>
    obtain ⟨hu, hus⟩ : classHist (mkHist s.w s.v u) ≠ .gap ∧ gapFree s.v u us = true := by
      simpa [gapFree] using hfree
    rcases exec_edgeOp u s with ⟨hc, e⟩ | ⟨hc, -⟩ | ⟨hc, e⟩
    · obtain ⟨t, hrun, hcnt, hacc, hframe⟩ := ih (edgeClk u s) hus
      have hbits := foldedBits_of_clock_ne ((classHist_eq_clk_iff s.w s.v u).mp hc) us
      have hcnt₁ : (edgeClk u s).cnt.toNat = min (s.cnt.toNat + 1) 31 := cntIncr_toNat s.cnt
      have hacc₁ : (edgeClk u s).acc = BitVec.ofNat 20 (2 * s.acc.toNat + (dataBit u).toNat) :=
        accShift_eq s.acc (dataBit u)
      refine ⟨t, ?_, ?_, ?_, ?_⟩
      · rw [edgeSteps_cons e, hrun, requestSeen_edgeClk]; rfl
      · rw [hcnt, hcnt₁, hbits, List.length_cons]
        show min (min (s.cnt.toNat + 1) 31 + (foldedBits u us).length) 31 = _
        omega
      · rw [hacc, hacc₁, ofNat_bitsFrom_toNat, hbits]
        rfl
      · rw [hframe]; rfl
    · exact absurd hc hu
    · obtain ⟨t, hrun, hcnt, hacc, hframe⟩ := ih (edgeData u s) hus
      have hbits := foldedBits_of_clock_eq ((classHist_eq_data_iff s.w s.v u).mp hc).1 us
      refine ⟨t, ?_, ?_, ?_, ?_⟩
      · rw [edgeSteps_cons e, hrun, requestSeen_edgeData]; rfl
      · rw [hcnt, hbits]; rfl
      · rw [hacc, hbits]; rfl
      · rw [hframe]; rfl

/-- Settles O19: `edgeSteps_gapFree` from an empty accumulator; up to 20 bits fit its width. -/
theorem foldedBitsStandInWireOrder : Obligations.FoldedBitsStandInWireOrder := by
  intro s us hacc hcnt hfree
  obtain ⟨t, hrun, htcnt, htacc, hframe⟩ := edgeSteps_gapFree us s hfree
  rw [hcnt, BitVec.toNat_zero, Nat.zero_add] at htcnt
  rw [hacc, BitVec.toNat_zero] at htacc
  refine ⟨t, hrun, htcnt, fun hlen => ?_, ?_, hframe⟩
  · have hlt := bitsFrom_lt 0 (foldedBits s.v us)
    have hpow : 2 ^ (foldedBits s.v us).length ≤ 2 ^ 20 := Nat.pow_le_pow_right (by decide) hlen
    rw [htacc, BitVec.toNat_ofNat, Nat.mod_eq_of_lt (by omega)]
    rfl
  · rw [← BitVec.toNat_inj, htcnt, BitVec.toNat_ofNat]
    omega

/-! ## The operations by row -/

/-- EDGE.CLK of a sample as the numbers of R102. -/
theorem edgeClk_mkSample (ud c : Level) (s : State) :
    edgeClk (mkSample ud c) s =
      { s with acc := BitVec.ofNat 20 (2 * s.acc.toNat + ud.toNat),
               cnt := BitVec.ofNat 5 (min (s.cnt.toNat + 1) 31), w := s.v, v := ud ++ c } := by
  rw [← accShift_eq, ← cntIncr_eq, edgeClk, dataBit_mkSample]
  rfl

/-- Settles O13: both rows fold the data level of their own sample. -/
theorem clockEdgeFoldsTheDataBit : Obligations.ClockEdgeFoldsTheDataBit := fun s _ _ ud =>
  ⟨congrArg _ (edgeClk_mkSample ud 1#1 s), congrArg _ (edgeClk_mkSample ud 0#1 s)⟩

/-- EDGE.GAP of a sample by the branches of R104 and R131. -/
theorem edgeGap_eq (u : Sample) (s : State) :
    edgeGap u s =
      (if s.cnt = 20#5 then
        if s.occ < 10 then
          { s with acc := 0#20, cnt := 0#5, w := s.v, v := u, qPend := s.qPend ++ [s.acc.zeroExtend 32],
                   history := .enqueued (s.acc.zeroExtend 32) :: s.history }
        else { s with acc := 0#20, cnt := 0#5, w := s.v, v := u, history := .discFull s.acc :: s.history }
      else { s with acc := 0#20, cnt := 0#5, w := s.v, v := u, history := .discLen s.cnt :: s.history }) := by
  rcases closeFrame_eq s with ⟨hcnt, hroom, e⟩ | ⟨hcnt, hfull, e⟩ | ⟨hcnt, e⟩ <;> rw [edgeGap, e]
  · rw [if_pos hcnt, if_pos hroom]; rfl
  · rw [if_pos hcnt, if_neg (Nat.not_lt_of_le hfull), truncate_zeroExtend_frame]; rfl
  · rw [if_neg hcnt]; rfl

/-- Settles O14: either row closes the frame with its own sample. -/
theorem gapEmitsOrDiscardsAndClears : Obligations.GapEmitsOrDiscardsAndClears := by
  rintro s i u (⟨rfl, rfl⟩ | ⟨rfl, rfl⟩)
  · exact congrArg _ (edgeGap_eq 0b00#2 s)
  · exact congrArg _ (edgeGap_eq 0b10#2 s)

/-- Settles O15: each row is the history shift with its own sample. -/
theorem dataEdgeOnlyShiftsTheHistory : Obligations.DataEdgeOnlyShiftsTheHistory :=
  fun _ _ _ _ _ => ⟨rfl, rfl, rfl, rfl, rfl, rfl⟩

/-- Settles O23: the first steps from the reset state are run; the history word `00 10 00` is of the gap's class. -/
theorem firstEdgeStepsAfterReset : Obligations.FirstEdgeStepsAfterReset := by
  refine ⟨?_, rfl, rfl, rfl, rfl, rfl, rfl⟩
  decide

/-- Settles O24: a strobe selects by the history word, whatever its source. -/
theorem theStrobingLineIsIgnored : Obligations.TheStrobingLineIsIgnored := fun _ _ _ => rfl

end Sys2Proof.Machine
end

section
/-! The decoder's two forms (spec 42_frame_decoder.md R162): one pending write at a time in any admitted order, and the
whole decode in one step; and what R sees of either (20_memory.md R57). -/

namespace Sys2Proof.Machine

/-! ## One pending write -/

theorem phaseOf_eq (ks : List RegWrite) : phaseOf ks = if ks = [] then .idle else .writing ks := by
  cases ks <;> rfl

theorem writeStep_none {s : State} {ks : List RegWrite} {r : RegName} (hp : s.phase = .writing ks)
    (h : pickWrite r ks = none) : writeStep r s = s := by
  simp only [writeStep, hp, h]

theorem runEvent_write {s : State} (hr : s.rst = false) (r : RegName) :
    runEvent (.write r) s = .next (writeStep r s) :=
  runEvent_free hr

/-- Settles O40: `writeStep_of_mem` for an allowed write, `pickWrite_none` for the others. -/
theorem decoderWritesOneRegisterAtATimeInitFirst : Obligations.DecoderWritesOneRegisterAtATimeInitFirst := by
  intro s ks hr hp hnodup
  refine ⟨fun k hk hfirst => ?_, fun r hnone => ?_⟩
  · rw [runEvent_write hr, writeStep_of_mem hp hk hnodup hfirst, phaseOf_eq]
    rfl
  · rw [runEvent_write hr, writeStep_none hp (pickWrite_none hnone)]

/-! ## All pending writes in an admitted order -/

theorem runEvents_cons {e : Event} {s t : State} (h : runEvent e s = .next t) (es : List Event) :
    runEvents (e :: es) s = runEvents es t := by
  simp only [runEvents, h]

/-- Each register of the order names a pending write. -/
theorem exists_write_of_order {ks : List RegWrite} {r : RegName} {rs : List RegName}
    (hperm : (r :: rs).Perm (ks.map RegWrite.reg)) : ∃ k ∈ ks, k.reg = r :=
  List.mem_map.mp (hperm.subset (by simp))

/-- D's steps on the pending writes in an order that has INIT's first perform each of them, in that order, and end in
IDLE. -/
theorem runEvents_writes {rs : List RegName} {ks : List RegWrite} {s : State} (hr : s.rst = false)
    (hp : s.phase = phaseOf ks) (hnodup : (ks.map RegWrite.reg).Nodup) (hperm : rs.Perm (ks.map RegWrite.reg))
    (hinit : .init ∈ rs → rs.head? = some .init) :
    ∃ ks' : List RegWrite, ks'.Perm ks ∧ ks'.map RegWrite.reg = rs ∧
      runEvents (rs.map .write) s = .next { storeAll ks' s with phase := .idle } := by
  induction rs generalizing ks s with
  | nil =>
    obtain rfl : ks = [] := by simpa using hperm
    exact ⟨[], .nil, rfl, congrArg _ (with_phase_idle hp).symm⟩
  | cons r rs ih =>
    obtain ⟨k, hk, rfl⟩ := exists_write_of_order hperm
    have hrest : rs.Perm ((ks.erase k).map RegWrite.reg) :=
      (List.perm_cons k.reg).mp (hperm.trans ((List.perm_cons_erase hk).map RegWrite.reg))
    have hlater : .init ∉ rs := fun hmem => by
      have hki : k.reg = .init := by simpa using hinit (by simp [hmem])
      exact (List.nodup_cons.mp (hperm.nodup_iff.mpr hnodup)).1 (hki ▸ hmem)
    have hfirst : k.reg = .init ∨ ∀ k' ∈ ks, k'.reg ≠ .init := by
      refine or_iff_not_imp_left.mpr fun hne k' hk' hk'i => hne ?_
      have hmem : .init ∈ k.reg :: rs := hperm.symm.subset (hk'i ▸ List.mem_map_of_mem hk')
      simpa using hinit hmem
    have hne : ks ≠ [] := List.ne_nil_of_mem hk
    have hwrite := writeStep_of_mem (hp.trans (by rw [phaseOf_eq, if_neg hne])) hk hnodup hfirst
    obtain ⟨ks', hperm', hregs, hrun⟩ := ih (s := { storeReg k s with phase := phaseOf (ks.erase k) }) hr rfl
      (hnodup.sublist (List.erase_sublist.map _)) hrest (fun h => absurd h hlater)
    refine ⟨k :: ks', (hperm'.cons k).trans (List.perm_cons_erase hk).symm, by rw [List.map_cons, hregs], ?_⟩
    rw [List.map_cons, runEvents_cons (runEvent_write hr _), hwrite, hrun, storeAll_cons, storeAll_eq, storeAll_eq]

/-- Writes of different registers end in the same registers in every order. -/
theorem foldl_apply_perm {as bs : List RegWrite} (h : as.Perm bs) (hnodup : (bs.map RegWrite.reg).Nodup)
    (f : RegFile) : as.foldl RegFile.apply f = bs.foldl RegFile.apply f := by
  refine h.foldl_eq' (fun a ha b hb g => ?_) f
  by_cases hab : a.reg = b.reg
  · rw [List.inj_on_of_nodup_map hnodup (h.subset ha) (h.subset hb) hab]
  · exact apply_comm hab g

/-- So the order of the writes shows in the list of the unseen ones alone. -/
theorem storeAll_perm {as bs : List RegWrite} (h : as.Perm bs) (hnodup : (bs.map RegWrite.reg).Nodup) (s : State) :
    storeAll as s = { storeAll bs s with unseen := (storeAll as s).unseen } := by
  rw [storeAll_eq, storeAll_eq, foldl_apply_perm h hnodup, foldl_apply_perm h hnodup]

theorem runEvent_deq {s : State} (hr : s.rst = false) : runEvent .deq s = .next (dequeueStep s) :=
  runEvent_free hr

theorem runEvent_decode {s : State} {q : QWord} {rest : List QWord} (hr : s.rst = false) (hp : s.phase = .idle)
    (hq : s.qVis = q :: rest) : runEvent .decode s = exec (decodeQW q) (takeHead q s) := by
  rw [runEvent_free hr]
  simp only [runFree, decodeWhole, hp, hq]

/-- Settles O41: a discarded word has no writes and both forms agree; the writes of any other are of different
registers, so that every order ends in the same registers and only the list of the unseen ones shows the order. -/
theorem everyAdmittedWriteOrderGivesTheSameDecode : Obligations.EveryAdmittedWriteOrderGivesTheSameDecode := by
  intro s q rest rs hr hp hq hperm hhead
  have hdecode := runEvent_decode hr hp hq
  rcases decode_word_cases q (s := takeHead q s) hp with ⟨hnil, o, -, hdeq, e⟩ | ⟨hrej, hfx, hdeq, e⟩
  · obtain rfl : rs = [] := by simpa [hnil] using hperm
    refine ⟨observe o (takeHead q s), observe o (takeHead q s), [], ?_, ?_, hp, rfl, fun _ => rfl,
      fun _ => ⟨by rw [hnil], rfl, ?_, ?_⟩⟩
    · rw [runEvents_cons (runEvent_deq hr), dequeueStep_cons hp hq, hdeq]; rfl
    · rw [runEvents_cons (hdecode.trans e)]; rfl
    · exact (List.append_nil _).symm
    · rw [hnil]; exact (List.append_nil _).symm
  · obtain ⟨n, ks, hws, -, hnodup, -⟩ := writesOf_shape q hrej hfx
    obtain ⟨ks', hperm', hregs, hrun⟩ := runEvents_writes (s := { takeHead q s with phase := .writing (writesOf q) })
      hr (by rw [hws]; rfl) hnodup hperm (fun hmem => hhead.resolve_left (List.ne_nil_of_mem hmem))
    have hsame := storeAll_perm hperm' hnodup (takeHead q s)
    refine ⟨storeAll ks' (takeHead q s), storeAll (writesOf q) (takeHead q s), ks', ?_, ?_, ?_, hsame, fun hlag => ?_,
      fun hlag => ⟨hperm', hregs, ?_, ?_⟩⟩
    · rw [runEvents_cons (runEvent_deq hr), dequeueStep_cons hp hq, hdeq, hrun,
        ← finishDecode_of_idle (s := takeHead q s) hp, finishDecode, storeAll_eq, storeAll_eq]
    · rw [runEvents_cons (hdecode.trans e)]; rfl
    · rw [storeAll_phase]; exact hp
    · rw [hsame, storeAll_unseen, if_neg (by simp [hlag]), storeAll_eq, takeHead_lag, hlag]; rfl
    · rw [storeAll_unseen, takeHead_lag, hlag]; rfl
    · rw [storeAll_unseen, takeHead_lag, hlag]; rfl

/-! ## What R sees of a decode while its view lags -/

theorem seeReg_none {s : State} {r : RegName} (h : pickUnseen r s.unseen = none) : seeReg r s = s := by
  simp only [seeReg, h]

theorem runEvent_see {s : State} (hr : s.rst = false) (r : RegName) : runEvent (.see r) s = .next (seeReg r s) :=
  runEvent_free hr

/-- An unseen INIT write keeps back the writes of other registers after it. -/
theorem pickUnseen_blocked {a b : List RegWrite} {i : RegWrite} {r : RegName} (hi : i.reg = .init)
    (ha : ∀ k ∈ a, k.reg ≠ r) (hr : r ≠ .init) : pickUnseen r (a ++ i :: b) = none := by
  induction a with
  | nil => simp [pickUnseen, hi, hr.symm]
  | cons c cs ih =>
    have hc := ha c (by simp)
    have hcs := ih fun k hk => ha k (by simp [hk])
    simp [pickUnseen, hc, hcs]

theorem pickUnseen_absent {ks : List RegWrite} {r : RegName} (h : ∀ k ∈ ks, k.reg ≠ r) : pickUnseen r ks = none := by
  cases hp : pickUnseen r ks with
  | none => rfl
  | some p =>
    obtain ⟨a, b, rfl, -, hk, -⟩ := pickUnseen_some (k := p.1) (rest := p.2) hp
    exact absurd hk (h p.1 (by simp))

theorem Admits.meaningful_before {f : RegFile} {k : RegWrite} (h : Admits f k) : f.meaningful k.reg = true := by
  unfold RegFile.meaningful
  cases hr : k.reg.field with
  | none => rfl
  | some n => exact h.2 n hr

/-- Where every unseen write comes with its INIT bit, no register is shown whose INIT bit is clear in the view. -/
theorem seeReg_of_not_meaningful {s : State} (hu : UnseenOk s.view s.unseen) {r : RegName}
    (hr : s.view.meaningful r = false) : seeReg r s = s := by
  rcases seeReg_cases r s with e | ⟨a, k, b, hs, rfl, ha, -⟩
  · exact e
  · rw [hs] at hu
    rw [(unseenOk_see ha hu).1.meaningful_before] at hr
    cases hr

/-- Settles O47: D's writes join the unseen ones; R's step is `pickUnseen`. -/
theorem aLaggingWriteIsSeenOnlyAfterInit : Obligations.ALaggingWriteIsSeenOnlyAfterInit := by
  intro s hr hlag
  refine ⟨fun q => ?_, fun r => ?_, fun a b k hu ha => ?_, fun a b i r hu hi ha hne => ?_, fun r habsent => ?_,
    fun hok r hm => ?_⟩
  · rcases exec_decodeQW q s with ⟨-, hnil, e⟩ | ⟨-, hnil, e⟩ | ⟨-, -, e⟩
    · exact ⟨_, e, rfl, by simp [hnil]⟩
    · exact ⟨_, e, rfl, by simp [hnil]⟩
    · exact ⟨_, e, by simp [finishDecode_eq, hlag], by simp [finishDecode_eq, hlag]⟩
  · refine ⟨writeStep r s, runEvent_write hr r, ?_⟩
    rcases writeStep_cases r s with e | ⟨ks, k, -, -, hk, -, e⟩ <;> rw [e]
    · exact ⟨rfl, .inl rfl⟩
    · exact ⟨by simp [hlag], .inr ⟨k, hk, by simp [hlag]⟩⟩
  · rw [runEvent_see hr, seeReg, hu, pickUnseen_append b ha]
  · rw [runEvent_see hr, seeReg_none (hu ▸ pickUnseen_blocked hi ha hne)]
  · rw [runEvent_see hr, seeReg_none (pickUnseen_absent habsent)]
  · rw [runEvent_see hr, seeReg_of_not_meaningful hok hm]

end Sys2Proof.Machine
end

section
/-! The operations one by one (spec 41_frame_queue.md R131 to R133, 42_frame_decoder.md R154 to R161, 43_state_readout.md,
70_reset_and_hazards.md R230): what each answers in every state, and how a step selects them. -/

namespace Sys2Proof.Machine

/-! ## The FIFO -/

/-- Settles O25: `enqueue_eq`; the low 20 bits of the word are its frame. -/
theorem enqAppendsOrDropsTheNewest : Obligations.EnqAppendsOrDropsTheNewest := by
  intro s q
  have hframe : q.truncate 20 = q.extractLsb' 0 20 := BitVec.setWidth_eq_extractLsb' (by decide)
  rcases enqueue_eq q s with ⟨hroom, e⟩ | ⟨hfull, e⟩
  · exact congrArg _ (e.trans (if_pos hroom).symm)
  · rw [hframe] at e
    exact congrArg _ (e.trans (if_neg (Nat.not_lt_of_le hfull)).symm)

theorem classQW_eq_reject_iff (q : QWord) : classQW q = .reject ↔ crcOk q = false := by
  rw [classQW_eq]
  split_ifs with h <;> simp [h]

theorem classQW_eq_fx_iff (q : QWord) : classQW q = .fx ↔ crcOk q = true ∧ 3 < q.toNat / 2 ^ 18 := by
  rw [classQW_eq]
  cases hcrc : crcOk q with
  | false => simp
  | true =>
    rw [if_neg nofun]
    split_ifs <;> simp <;> omega

/-- What D does in IDLE with a word it has taken, by the tests of R154 and R161. -/
theorem beginDecode_of_idle (q : QWord) {s : State} (hp : s.phase = .idle) :
    beginDecode q s =
      (if crcOk q = false then observe (.discCrc q) s
       else if 3 < q.toNat / 2 ^ 18 then observe (.discField q) s
       else { s with phase := .writing (writesOf q) }) := by
  have owes (hrej : classQW q ≠ .reject) (hfx : classQW q ≠ .fx) : crcOk q ≠ false ∧ ¬ 3 < q.toNat / 2 ^ 18 := by
    rw [Ne, classQW_eq_reject_iff] at hrej
    rw [Ne, classQW_eq_fx_iff] at hfx
    exact ⟨hrej, fun h => hfx ⟨by simpa using hrej, h⟩⟩
  rcases beginDecode_eq q s with ⟨hc, -, e⟩ | ⟨hc, -, e⟩ | ⟨hc, -, e⟩ | ⟨hc, -, e⟩ | ⟨hc, -, e⟩ | ⟨hc, -, e⟩ <;> rw [e]
  · rw [if_pos ((classQW_eq_reject_iff q).mp hc), with_phase_idle hp]
  · obtain ⟨hcrc, hn⟩ := (classQW_eq_fx_iff q).mp hc
    rw [if_neg (by simp [hcrc]), if_pos hn, with_phase_idle hp]
  all_goals
    obtain ⟨hcrc, hn⟩ := owes (by simp [hc]) (by simp [hc])
    rw [if_neg hcrc, if_neg hn]

theorem takeHead_eq {s : State} {q : QWord} {rest : List QWord} (hq : s.qVis = q :: rest) :
    takeHead q s =
      { s with qVis := rest, nFreePend := s.nFreePend + 1, history := .dequeued q :: s.history } := by
  simp only [takeHead, observe, hq, List.tail_cons]

/-- Settles O26: DEQ takes the head, then `beginDecode_of_idle`. -/
theorem deqTakesTheOldestVisibleWord : Obligations.DeqTakesTheOldestVisibleWord := by
  intro s q rest hp hq
  have hdeq : exec .deq s = .next (beginDecode q (takeHead q s)) := congrArg _ (dequeueStep_cons hp hq)
  rw [hdeq, beginDecode_of_idle q (s := takeHead q s) hp, takeHead_eq hq]
  rfl

/-- Settles O27: neither form of the decode is enabled. -/
theorem decoderWaitsWithoutAVisibleEntryOrWhileWriting :
    Obligations.DecoderWaitsWithoutAVisibleEntryOrWhileWriting := by
  intro s hwait
  refine ⟨congrArg _ (dequeueStep_wait hwait), fun hr => ?_⟩
  rw [runEvent_free hr]
  rcases decodeWhole_cases s with ⟨-, e⟩ | ⟨q, rest, hp, hq, -⟩
  · exact e
  · simp [hp, hq] at hwait

theorem fifoRelease_of_zero {s : State} (h : s.nFreePend = 0) : fifoRelease s = s :=
  congrArg (fun n => { s with nFreePend := n }) (by omega : s.nFreePend - 1 = s.nFreePend)

/-- Settles O28: one word or one slot crosses, or nothing. -/
theorem publishAndReleaseCrossOneAtATime : Obligations.PublishAndReleaseCrossOneAtATime := by
  intro s
  refine ⟨fun q rest hq => congrArg _ (fifoPublish_cons hq), fun hq => congrArg _ (fifoPublish_nil hq),
    fun n hn => ?_, fun h => congrArg _ (fifoRelease_of_zero h)⟩
  show Host.Outcome.next (fifoRelease s) = _
  rw [fifoRelease, hn, Nat.add_sub_cancel]

/-! ## The decode operations -/

/-- Settles O32: the writes of `W(0)` in numbers. -/
theorem decF0WritesTheAxes : Obligations.DecF0WritesTheAxes := by
  intro s q
  show Host.Outcome.next (finishDecode (writesF0 q) s) = _
  rw [finishDecode_eq, writesF0, payloadLow_eq, invertAxis_payloadHigh]
  rfl

/-- Settles O33: the writes of `W(1)` in numbers. -/
theorem decF1WritesTheTriggers : Obligations.DecF1WritesTheTriggers := by
  intro s q
  show Host.Outcome.next (finishDecode (writesF1 q) s) = _
  rw [finishDecode_eq, writesF1, payloadLow_eq, payloadHigh_eq]
  rfl

/-- The difference of two bits of the payload window, as an integer. -/
theorem bitDiff_payloadBit (q : QWord) (i j : Nat) :
    bitDiff (payloadBit q i) (payloadBit q j)
      = BitVec.ofInt 2 ((q.getLsbD (i + 4)).toNat - (q.getLsbD (j + 4)).toNat) := by
  rw [payloadBit_eq, payloadBit_eq, ← bitDiff_toInt, BitVec.ofInt_toInt]

/-- Settles O34: the writes of `W(2)` in numbers. -/
theorem decF2WritesThrottleAndDirections : Obligations.DecF2WritesThrottleAndDirections := by
  intro s q
  rw [exec_decF2, finishDecode_eq, foldl_apply_writesF2, foldl_apply_writesF2, writesF2, payloadHigh_eq,
    bitDiff_payloadBit, bitDiff_payloadBit, bitDiff_payloadBit, bitDiff_payloadBit]
  rfl

/-- Settles O35: the writes of `W(3)` in numbers. -/
theorem decF3WritesTheButtons : Obligations.DecF3WritesTheButtons := by
  intro s q
  show Host.Outcome.next (finishDecode (writesF3 q) s) = _
  rw [finishDecode_eq, writesF3, payloadButtons_eq]
  rfl

/-- Settles O36: both record their label and set the phase. -/
theorem rejectedAndUnknownWordsWriteNothing : Obligations.RejectedAndUnknownWordsWriteNothing :=
  fun _ _ => ⟨rfl, rfl⟩

/-! ## The read port -/

theorem view_eq_regs {s : State} (hs : s.ViewInSync) (hlag : s.lag = false) : s.view = s.regs := by
  obtain ⟨hsync, hnone⟩ := hs
  simpa [hnone hlag] using hsync

/-- Settles O42: each row of the table is the word at its address in R's view. -/
theorem readReturnsTheAddressedRegister : Obligations.ReadReturnsTheAddressedRegister := by
  intro s a d had
  have hd : d = s.view.readAddr a := by
    simp only [List.mem_cons, List.not_mem_nil, or_false, Prod.mk.injEq] at had
    rcases had with ⟨rfl, rfl⟩ | ⟨rfl, rfl⟩ | ⟨rfl, rfl⟩ | ⟨rfl, rfl⟩ | ⟨rfl, rfl⟩ | ⟨rfl, rfl⟩ | ⟨rfl, rfl⟩ |
      ⟨rfl, rfl⟩ | ⟨rfl, rfl⟩ | ⟨rfl, rfl⟩ | ⟨rfl, rfl⟩ <;> rfl
  subst hd
  exact ⟨rfl, fun hs hlag => by rw [view_eq_regs hs hlag]⟩

/-- A read as later reads and writes see it. -/
theorem exists_read {s : State} (hr : s.rst = false) (a : RdAddr) : ∃ t : State,
    runEvent (.rdReq a) s = .next t ∧ t.rst = false ∧ t.lag = s.lag ∧ t.phase = s.phase ∧ t.view = s.view ∧
      t.history = .read a (s.view.readAddr a) :: s.history :=
  ⟨readPort a s, runEvent_free hr, hr, rfl, rfl, rfl, rfl⟩

/-- D's write of the first listed register, where no INIT write is pending and R's view does not lag. -/
theorem exists_write_head {s : State} {k : RegWrite} {ks : List RegWrite} (hr : s.rst = false) (hlag : s.lag = false)
    (hp : s.phase = .writing (k :: ks)) (hnodup : ((k :: ks).map RegWrite.reg).Nodup)
    (hinit : ∀ k' ∈ k :: ks, k'.reg ≠ .init) : ∃ t : State,
    runEvent (.write k.reg) s = .next t ∧ t.rst = false ∧ t.lag = false ∧ t.phase = phaseOf ks ∧
      t.view = s.view.apply k ∧ t.history = s.history := by
  refine ⟨{ storeReg k s with phase := phaseOf ks }, ?_, hr, hlag, rfl, by simp [hlag], rfl⟩
  rw [runEvent_write hr, writeStep_of_mem hp List.mem_cons_self hnodup (.inr hinit), List.erase_cons_head]

/-- Settles O45: the schedule event by event; with no lag each write shows at once. -/
theorem aSnapshotMayMixDecodes : Obligations.ASnapshotMayMixDecodes := by
  intro s a b hr hlag hp
  obtain ⟨t₁, e₁, hr₁, hl₁, hp₁, hv₁, hh₁⟩ :=
    exists_write_head hr hlag hp (by simp [RegWrite.reg]) (by simp [RegWrite.reg])
  obtain ⟨t₂, e₂, hr₂, hl₂, hp₂, hv₂, hh₂⟩ := exists_read hr₁ 0#4
  obtain ⟨t₃, e₃, hr₃, hl₃, hp₃, hv₃, hh₃⟩ := exists_read hr₂ 1#4
  have hp₃ : t₃.phase = .writing [.y b] := hp₃.trans (hp₂.trans hp₁)
  obtain ⟨t₄, e₄, hr₄, -, hp₄, hv₄, hh₄⟩ :=
    exists_write_head hr₃ (hl₃.trans (hl₂.trans hl₁)) hp₃ (by simp) (by simp [RegWrite.reg])
  obtain ⟨t₅, e₅, -, -, hp₅, -, hh₅⟩ := exists_read hr₄ 1#4
  refine ⟨t₅, ?_, ?_, hp₅.trans hp₄⟩
  · exact (runEvents_cons e₁ _).trans <| (runEvents_cons e₂ _).trans <| (runEvents_cons e₃ _).trans <|
      (runEvents_cons e₄ _).trans (runEvents_cons e₅ [])
  · rw [hh₅, hh₄, hh₃, hh₂, hh₁, hv₄, hv₃, hv₂, hv₁]
    rfl

/-- The one-step decode of a visible word of field 0 while R's view lags, as later decodes and reads see it. -/
theorem exists_lagging_decode_f0 {s : State} {q : QWord} {rest : List QWord} (hr : s.rst = false)
    (hlag : s.lag = true) (hp : s.phase = .idle) (hq : s.qVis = q :: rest) (hc : classQW q = .f0) : ∃ t : State,
    runEvent .decode s = .next t ∧ t.rst = false ∧ t.lag = true ∧ t.phase = .idle ∧ t.qVis = rest ∧
      t.view = s.view ∧ t.unseen = s.unseen ++ writesF0 q ∧ t.history = .dequeued q :: s.history ∧
      t.regs.y = invertAxis (payloadHigh q) := by
  refine ⟨finishDecode (writesF0 q) (takeHead q s), ?_, ?_⟩
  · rw [runEvent_decode hr hp hq, decodeQW, hc]
    rfl
  · rw [finishDecode_eq]
    simp only [takeHead_lag, takeHead_rst, takeHead_qVis, takeHead_view, takeHead_unseen, takeHead_history, hr, hlag,
      hq, List.tail_cons, if_true, true_and]
    rfl

/-- With the writes of three decodes of one field unseen, R may read the third X, then the old Y, then the first Y. -/
theorem exists_read_across_decodes {s : State} (hr : s.rst = false) {n : BitVec 2} {x₁ y₁ x₂ y₂ x₃ y₃ : BitVec 6}
    (hu : s.unseen = [.init n, .x x₁, .y y₁, .init n, .x x₂, .y y₂, .init n, .x x₃, .y y₃]) : ∃ t : State,
    runEvents [.see .init, .see .init, .see .init, .see .x, .see .x, .see .x, .rdReq 0#4, .rdReq 1#4, .see .y,
      .rdReq 1#4] s = .next t ∧
    t.history = .read 1#4 (y₁.zeroExtend 16) :: .read 1#4 (s.view.y.zeroExtend 16)
      :: .read 0#4 (x₃.zeroExtend 16) :: s.history ∧ t.regs = s.regs := by
  simp only [runEvents, runEvent, runFree, hr, Bool.false_eq_true, if_false, exec_rd, readPort_rst, readPort_unseen,
    seeReg, hu, pickUnseen, RegWrite.reg, beq_iff_eq, reduceCtorEq, if_true, Option.map_some]
  exact ⟨_, rfl, rfl, rfl⟩

/-- Settles O46: three decodes while the view lags leave their nine writes unseen, then `exists_read_across_decodes`. -/
theorem aReaderMayLagAcrossDecodes : Obligations.AReaderMayLagAcrossDecodes := by
  intro s q₁ q₂ q₃ rest hr hlag hp hsync hq hc
  obtain ⟨hc₁, hc₂, hc₃⟩ : classQW q₁ = .f0 ∧ classQW q₂ = .f0 ∧ classQW q₃ = .f0 := by simpa using hc
  have e₀ : runEvent .lagOn s = .next { s with lag := true } := runEvent_free hr
  obtain ⟨t₁, e₁, hr₁, hl₁, hp₁, hq₁, hv₁, hu₁, hh₁, -⟩ :=
    exists_lagging_decode_f0 (s := { s with lag := true }) hr rfl hp hq hc₁
  obtain ⟨t₂, e₂, hr₂, hl₂, hp₂, hq₂, hv₂, hu₂, hh₂, -⟩ := exists_lagging_decode_f0 hr₁ hl₁ hp₁ hq₁ hc₂
  obtain ⟨t₃, e₃, hr₃, -, -, -, hv₃, hu₃, hh₃, hy₃⟩ := exists_lagging_decode_f0 hr₂ hl₂ hp₂ hq₂ hc₃
  have hunseen : t₃.unseen = writesF0 q₁ ++ writesF0 q₂ ++ writesF0 q₃ := by
    rw [hu₃, hu₂, hu₁, hsync.2 hlag, List.nil_append]
  obtain ⟨t, e, hh, hregs⟩ := exists_read_across_decodes hr₃ hunseen
  refine ⟨t, ?_, ?_, by rw [hregs, hy₃]⟩
  · exact (runEvents_cons e₀ _).trans <| (runEvents_cons e₁ _).trans <| (runEvents_cons e₂ _).trans <|
      (runEvents_cons e₃ _).trans e
  · rw [hh, hh₃, hh₂, hh₁, hv₃, hv₂, hv₁]

/-! ## Reset -/

/-- Settles O48: the table's values, for the pulse and for the raised level. -/
theorem resetTakesTheTablesValues : Obligations.ResetTakesTheTablesValues := by
  intro s
  refine ⟨observe .reset (resetBlock s), rfl, rfl, fun hr => ?_⟩
  rw [runEvent_free hr, runEvent_free hr]
  exact ⟨rfl, rfl⟩

/-- Settles O50: by `runHeld_eq` only the lines and the level of `rst` follow the event. -/
theorem whileResetIsAssertedEveryEventIsLost : Obligations.WhileResetIsAssertedEveryEventIsLost := by
  intro s e hr
  refine ⟨_, (runEvent_held hr).trans (congrArg _ (runHeld_eq e hr)), rfl, rfl, rfl, ?_⟩
  cases e <;> simp [Event.rstAfter]

/-! ## The operation of a step -/

theorem step_event_free {s : State} {e : Event} {es : List Event} (hr : s.rst = false) (h : s.sched = e :: es) :
    step s = runFree e { s with sched := es } := by
  rw [step_event h]
  exact runEvent_free hr

theorem step_decode {s : State} {es : List Event} {q : QWord} {rest : List QWord} (hr : s.rst = false)
    (h : s.sched = .decode :: es) (hp : s.phase = .idle) (hq : s.qVis = q :: rest) :
    step s = exec (decodeQW q)
      { s with sched := es, qVis := rest, nFreePend := s.nFreePend + 1, history := .dequeued q :: s.history } := by
  rw [step_event h, runEvent_decode (s := { s with sched := es }) hr hp hq,
    takeHead_eq (s := { s with sched := es }) hq]

/-- Settles O51: each event's arm, the decode by `step_decode`. -/
theorem stepRunsTheSelectedOperation : Obligations.StepRunsTheSelectedOperation := by
  intro s es hr
  exact ⟨fun _ h => step_event_free hr h, fun _ _ h hp hq => step_decode hr h hp hq, fun _ h => step_event_free hr h,
    fun h => step_event_free hr h, fun h => step_event_free hr h, fun h => step_event_free hr h,
    fun h => step_event_free hr h, fun _ h => step_event_free hr h⟩

/-- The byte of a history word, its bits written out. -/
theorem histBytes_mkHist (w v u : Sample) : histBytes (mkHist w v u) = [0#2 ++ w ++ v ++ u] := by
  revert w v u; decide

/-- Settles O52: the bytes of each format decode to the operation their word selects. -/
theorem stepRunsTheDecodedInstruction : Obligations.StepRunsTheDecodedInstruction := by
  intro s es i hr
  refine ⟨fun src h hd => ?_, fun b0 b1 b2 b3 rest h hp hq hd => ?_, fun a h hd => ?_⟩
  · rw [← histBytes_mkHist, decode_histBytes] at hd
    cases hd
    exact step_event_free hr h
  · cases hd
    exact step_decode hr h hp hq
  · cases (decode_rdaBytes a).symm.trans hd
    exact step_event_free hr h

theorem decodeWhole_next (s : State) : ∃ t, decodeWhole s = .next t := by
  rcases decodeWhole_cases s with ⟨-, e⟩ | ⟨q, -, -, -, e⟩ <;> rw [e]
  · exact ⟨s, rfl⟩
  · exact exec_next _ _

theorem runFree_next (e : Event) (s : State) : ∃ t, runFree e s = .next t := by
  cases e with
  | strobe src => exact exec_next _ s
  | decode => exact decodeWhole_next s
  | rstLevel on => cases on <;> exact ⟨_, rfl⟩
  | _ => exact ⟨_, rfl⟩

theorem runEvent_next (e : Event) (s : State) : ∃ t, runEvent e s = .next t := by
  cases hr : s.rst with
  | true => exact ⟨_, runEvent_held hr⟩
  | false => rw [runEvent_free hr]; exact runFree_next e s

/-- Settles O53: every meaning answers a next state, and so does every event. -/
theorem everyOperationAndEveryStepCompletes : Obligations.EveryOperationAndEveryStepCompletes :=
  ⟨exec_next, fun s => step_eq_runEvent s ▸ runEvent_next s.nextEvent s.pop⟩

end Sys2Proof.Machine
end
